-- ==== Sys2Proof/Word.lean ====
section
/-! DEFINITION. The row types of the block: a bit is a Boolean (R7), a row is a bit vector whose bit i is the row's
position i (R8, R9). -/

namespace Sys2Proof

/-- A bit: "a boolean value, 0 or 1; no other states" (R7). -/
abbrev Bit := Bool

/-- A message row: exactly 4 bits, positions 0 to 3 (R36). -/
abbrev MsgRow := BitVec 4

/-- A codeword row or received row: exactly 7 bits, positions 0 to 6 (R37). -/
abbrev CwRow := BitVec 7

/-- A syndrome vector (s0, s1, s2): exactly 3 bits (R38). -/
abbrev Syndrome := BitVec 3

end Sys2Proof
end

