-- ==== Sys2Proof/Machine/Rows.lean ====
section
/-! DEFINITION. Rows as ordered positions (R8): read a position, build a row from its positions, complement positions,
weight and distance (the operators of `spec/00_scope.md` section 4.3), and row strings (R8, R48, R50, D4). -/

namespace Sys2Proof.Machine

/-- `v[i]`: the bit at position i of a row, which is bit i of its port value (R8, R9). -/
def pos {n : Nat} (v : BitVec n) (i : Nat) : Bit := v.getLsbD i

/-- The row of n positions whose position i is `f i`. -/
def rowOf : (n : Nat) → (Nat → Bit) → BitVec n
  | 0, _ => 0#0
  | n + 1, f => (rowOf n fun i => f (i + 1)).concat (f 0)

/-- A bit as the integer 0 or 1 (section 4.3: "bits enter as 0 or 1"). -/
def bitNat (b : Bit) : Nat := if b then 1 else 0

/-- `n mod 2` of a non-negative integer, as a bit (section 4.3). -/
def mod2 (n : Nat) : Bit := n % 2 == 1

/-- The row with position p complemented, every other position kept (R66). -/
def flipAt {n : Nat} (v : BitVec n) (p : Nat) : BitVec n :=
  rowOf n fun q => if q = p then !pos v q else pos v q

/-- `e_p`: the 7-bit row that is 1 at position p and 0 elsewhere (section 4.3). -/
def unitRow (p : Nat) : CwRow := rowOf 7 fun q => q == p

/-- The channel's liberty: complement every position of a list in turn (R101). -/
def flipAll (v : CwRow) (ps : List Nat) : CwRow := ps.foldl flipAt v

/-- `wt(v)`: the number of positions holding 1 (section 4.3). -/
def weight {n : Nat} (v : BitVec n) : Nat := (List.range n).countP (pos v)

/-- `dist(u,v)`: the number of positions where two rows differ (section 4.3). -/
def distance {n : Nat} (u v : BitVec n) : Nat := weight (u ^^^ v)

/-- The bits of a row in position order, position 0 first (R8). -/
def bitsOf {n : Nat} (v : BitVec n) : List Bit := (List.range n).map (pos v)

/-- The row of n positions read off a list, position 0 first (R8); only a list of n bits is given to it. -/
def rowOfBits (n : Nat) (bits : List Bit) : BitVec n := rowOf n fun i => bits.getD i false

/-- The character of a bit: '0' or '1' (R48, D4). -/
def bitChar (b : Bit) : Char := if b then '1' else '0'

/-- The bit of a character, if it is '0' or '1' (R48, R99). -/
def charBit (c : Char) : Option Bit :=
  if c = '0' then some false else if c = '1' then some true else none

/-- The row string: position 0 leftmost, no separators (R8, R50). -/
def rowString {n : Nat} (v : BitVec n) : List Char := (bitsOf v).map bitChar

/-- The bits of a row string, if every character is '0' or '1'; character n becomes position n (R48, D4). -/
def bitsOfString (cs : List Char) : Option (List Bit) := cs.mapM charBit

end Sys2Proof.Machine
end

