-- ==== Sys2Proof/Syntax.lean ====
section
/-! DEFINITION. The operations of the block as terms: the tagged transaction of R42, its unit and port (R2, R40, R41),
and the host's untyped row, which may be of any width (R26). -/

namespace Sys2Proof

/-- The block's two operations, the whole of `spec/opcode_table.json` (R42, R43). -/
inductive Instr where
  /-- ENCODE m: unit ENC, operand at `enc_m[3:0]` (R51). -/
  | encode (m : MsgRow)
  /-- CORRECT r: unit DEC, operand at `dec_r[6:0]` (R61). -/
  | correct (r : CwRow)
deriving DecidableEq, Repr

/-- The two input ports; the port used selects the operation, there being no opcode field (R40, R41, R42). -/
inductive Port where
  /-- `enc_m[3:0]` of unit ENC. -/
  | encM
  /-- `dec_r[6:0]` of unit DEC. -/
  | decR
deriving DecidableEq, Repr

/-- What the host drives on an input port: a row of exactly the port's width (R26, R27, D10). -/
inductive Drive where
  /-- a message row on `enc_m` -/
  | encM (m : MsgRow)
  /-- a received row on `dec_r` -/
  | decR (r : CwRow)
deriving DecidableEq, Repr

/-- A row as the host's matrix or text holds it, before the width contract is checked: the port it is meant for and its
bits, position 0 first (R8, R26, R45). -/
structure RawTxn where
  port : Port
  bits : List Bit
deriving DecidableEq, Repr

end Sys2Proof
end

