-- ==== Sys2Proof/WellFormed.lean ====
section
/-! DEFINITION. The width contract (R26, R45): the one check a row can fail. A term of `Instr` cannot fail it: its
operand type is exactly 4 or exactly 7 bits wide (R27, D10), and every value is legal (R44). -/

namespace Sys2Proof

/-- The number of wires of an input port (R6, R40, R41). -/
def Port.width : Port → Nat
  | .encM => 4
  | .decR => 7

/-- The unit's port an instruction's operand stands at (R42). -/
def Instr.port : Instr → Port
  | .encode _ => .encM
  | .correct _ => .decR

/-- The operand as the unsigned integer of the port (R9). -/
def Instr.portValue : Instr → Nat
  | .encode m => m.toNat
  | .correct r => r.toNat

/-- The operand fits its port. Every term passes: the types say it already (R27, R44, D10). -/
def Instr.wf (i : Instr) : Bool := decide (i.portValue < 2 ^ i.port.width)

/-- The width contract on one row of the host's matrix (R26). -/
def RawTxn.wf (t : RawTxn) : Bool := t.bits.length == t.port.width

/-- The width contract on a whole batch: "Every row of every batch matrix has exactly the width required for the
operation being performed" (R26). -/
def batchWf (p : Port) (rows : List (List Bit)) : Bool := rows.all fun bits => RawTxn.wf ⟨p, bits⟩

end Sys2Proof
end

