-- ==== Sys2Proof/Decode.lean ====
section
/-! DEFINITION. From rows at ports to instructions and back. There is no opcode field and no instruction word: the port
selects the operation, and all of the port's bits are operand bits (R42, R43, D18). `decodeDrive` is what the machine
uses; `decode` reads an untyped row and rejects a wrong width by name (R27, R45, U2). -/

namespace Sys2Proof

/-- Why an untyped row is no transaction. -/
inductive DecodeError where
  /-- The row does not have exactly the port's width; such a row cannot be expressed at a port (R27, R45, D10). Safe: the
  source gives the block no behaviour for it. -/
  | wrongWidth (port : Port) (actual : Nat)
deriving DecidableEq, Repr

/-- The operation of a row at a port: a value on `enc_m` is always an ENCODE operand, a value on `dec_r` always a CORRECT
operand (R42). Total: every value is legal (R44). -/
def decodeDrive : Drive → Instr
  | .encM m => .encode m
  | .decR r => .correct r

/-- The row at a port that an operation is (R42). -/
def encodeDrive : Instr → Drive
  | .encode m => .encM m
  | .correct r => .decR r

/-- Decode an untyped row, position 0 first: exactly 4 bits at `enc_m`, exactly 7 at `dec_r`, any values (R44, R45). -/
def decode (t : RawTxn) : Except DecodeError Instr :=
  match t.port with
  | .encM =>
    if t.bits.length = 4 then .ok (.encode (Machine.rowOfBits 4 t.bits))
    else .error (.wrongWidth .encM t.bits.length)
  | .decR =>
    if t.bits.length = 7 then .ok (.correct (Machine.rowOfBits 7 t.bits))
    else .error (.wrongWidth .decR t.bits.length)

/-- Encode an instruction: its port and the port's bits, position 0 first (the patterns `mmmm` and `rrrrrrr` of R43, in
which bit 3 and bit 6 stand leftmost). -/
def encode : Instr → RawTxn
  | .encode m => ⟨.encM, Machine.bitsOf m⟩
  | .correct r => ⟨.decR, Machine.bitsOf r⟩

/-- The low n bits of a port value, position 0 (the least significant, R9) first. -/
def portBits (n w : Nat) : List Bit := (List.range n).map w.testBit

/-- DESIGN CHOICE (log entry 5): the port that a row of `opcode_table.json` means when only a bit count and a number are
given. The table's own widths, 4 and 7, name the port. A count in whole bytes, 8, names neither: then a value that fits
`enc_m` is read there, and any other value that fits `dec_r` there. A value that fits no port is no row. -/
def tableTxn (nbits w : Nat) : Option RawTxn :=
  if (nbits = 4 ∨ nbits = 8) ∧ w < 2 ^ 4 then some ⟨.encM, portBits 4 w⟩
  else if (nbits = 7 ∨ nbits = 8) ∧ w < 2 ^ 7 then some ⟨.decR, portBits 7 w⟩
  else none

/-- The instruction the decoder reads from a word numbered as `opcode_table.json` numbers it (log entry 5). -/
def decodeTableWord (nbits w : Nat) : Option Instr :=
  match tableTxn nbits w with
  | none => none
  | some t =>
    match decode t with
    | .ok i => some i
    | .error _ => none

/-- The drive of a table word, if the word fits a port (log entry 5). -/
def tableDrive (nbits w : Nat) : Option Drive := (decodeTableWord nbits w).map encodeDrive

end Sys2Proof
end

