-- ==== Sys2Proof/Machine/Wiring.lean ====
section
/-! DEFINITION. The constants G, H, PAR and DAT (R11, R12, R13): wiring, neither state nor configuration (R14, D15). -/

namespace Sys2Proof.Machine

/-- The generator matrix, row i = codeword position i, column j = message position j (R11). -/
def gRows : List (List Nat) :=
  [[1, 1, 0, 1],
   [1, 0, 1, 1],
   [1, 0, 0, 0],
   [0, 1, 1, 1],
   [0, 1, 0, 0],
   [0, 0, 1, 0],
   [0, 0, 0, 1]]

/-- The parity-check matrix, row i = syndrome component s_i, column j = codeword position j (R12). -/
def hRows : List (List Nat) :=
  [[1, 0, 1, 0, 1, 0, 1],
   [0, 1, 1, 0, 0, 1, 1],
   [0, 0, 0, 1, 1, 1, 1]]

/-- PAR, the parity columns (R13); read by no operation. -/
def parColumns : List Nat := [0, 1, 3]

/-- DAT, the data columns "in this exact order" (R13). -/
def datColumns : List Nat := [2, 4, 5, 6]

/-- `G(i,j)`, both 0-based (section 4.3). -/
def gEntry (i j : Nat) : Nat := (gRows.getD i []).getD j 0

/-- `H(i,j)`, both 0-based (section 4.3). -/
def hEntry (i j : Nat) : Nat := (hRows.getD i []).getD j 0

/-- `DAT[j]`: the codeword position that carries message position j (R13). -/
def dat (j : Nat) : Nat := datColumns.getD j 0

/-- Entry (i,j) of the integer product H . G (R19). -/
def hgEntry (i j : Nat) : Nat :=
  hEntry i 0 * gEntry 0 j + hEntry i 1 * gEntry 1 j + hEntry i 2 * gEntry 2 j + hEntry i 3 * gEntry 3 j
    + hEntry i 4 * gEntry 4 j + hEntry i 5 * gEntry 5 j + hEntry i 6 * gEntry 6 j

end Sys2Proof.Machine
end

