-- ==== Sys2Proof/Machine/Flags.lean ====
section
/-! DEFINITION. The block has no flags, condition codes or status bits (R17), and no operation writes one (R57, R74).
What stands here are the internal condition values of CORRECT: the syndrome, k and index, named as functions of the
received row (R20). They are no state and visible at no port (D8). -/

namespace Sys2Proof.Machine

/-- `u[i]`: row i of H times the received row, over the integers (R62). -/
def syndromeSum (r : CwRow) (i : Nat) : Nat :=
  hEntry i 0 * bitNat (pos r 0) + hEntry i 1 * bitNat (pos r 1) + hEntry i 2 * bitNat (pos r 2)
    + hEntry i 3 * bitNat (pos r 3) + hEntry i 4 * bitNat (pos r 4) + hEntry i 5 * bitNat (pos r 5)
    + hEntry i 6 * bitNat (pos r 6)

/-- `S = H . row (mod 2)`, position i holding s_i (R38, R62). -/
def syndrome (r : CwRow) : Syndrome := rowOf 3 fun i => mod2 (syndromeSum r i)

/-- `k = s0 + 2*s1 + 4*s2`, 0..7 (R38, R64). -/
def syndromeK (r : CwRow) : Nat :=
  bitNat (pos (syndrome r) 0) + 2 * bitNat (pos (syndrome r) 1) + 4 * bitNat (pos (syndrome r) 2)

/-- `index = s0 + 2*s1 + 4*s2 - 1`, a mathematical integer in -1..6, never truncated (R64, R70, D11). -/
def wrongBitIndex (r : CwRow) : Int := (syndromeK r : Int) - 1

end Sys2Proof.Machine
end

