-- ==== Sys2Proof/Config.lean ====
section
/-! DEFINITION. What the spec leaves to the platform or to the host: the number of instances at reset (D16) and the
open parameter HOST_VALIDATION (D19). G, H, PAR and DAT are no configuration (R14, D15): see Machine/Wiring.lean. -/

namespace Sys2Proof

/-- `N_INST` of each unit in the state right after reset: the spec's default, "1 of each" (R6's table of parameters, D16).
Any other number is a State with longer port banks. -/
def Config.defaultInstances : Nat := 1

/-- HOST_VALIDATION (R100, D19): the number the host gives the first line of a text source. A free value: the spec
states no numbering base (log entry 6). -/
opaque Config.firstLineNumber : Nat

/-- HOST_VALIDATION (R100, D19): which defect the host reports when a source of the given width and lines has several.
A free value, used modulo the number of defects: the spec states no precedence (log entry 6). -/
opaque Config.reportedDefect : Nat → List (List Char) → Nat

end Sys2Proof
end

