-- ==== Sys2Proof/Machine/State.lean ====
section
/-! DEFINITION. The machine's state: the block, which holds nothing (R10), and around it what the host drives and keeps,
because a step needs an input and a place where its result is read (R82, R101; log entry 1). -/

namespace Sys2Proof.Machine

/-- Why the machine stops with a fault: never. "The list of synchronous exceptions of this hardware is empty" (R89), so
this type has no constructor and nobody raises one. -/
inductive Fault : Type
deriving DecidableEq, Repr

/-- Why a step has no meaning. No operation of this block is refused (R89); `exec` has a meaning in every arm. -/
inductive Refusal where
  /-- An instruction whose meaning is not written yet. Raised by nobody: no arm of `exec` is refused. Safe: the model
  would stop where the hardware goes on. -/
  | notModelled (mnemonic : String)
deriving DecidableEq, Repr

/-- The mutable architectural state of the block: the empty record (R10, R15 to R18, R21, R22). -/
structure Block where
deriving DecidableEq, Repr

/-- The input ports of all instances of one unit, at least one (R87): the row on the first instance's port and the rows
on the others'. -/
structure Bank (α : Type) where
  first : α
  rest : List α
deriving DecidableEq, Repr

/-- Where the host stands in its batch: the index of the row being transformed (R79) and the number of the unit's
instance it presents that row at (R82, R87), read modulo the number built (log entry 4). -/
structure Slot where
  row : Nat
  inst : Nat
deriving DecidableEq, Repr

/-- One transaction the host has still to issue: its slot and the row it presents (R82). -/
structure Job where
  slot : Slot
  drive : Drive
deriving DecidableEq, Repr

/-- A row read at an output port: 7 bits at `enc_c` (R40) or 4 bits at `dec_m` (R41). DEC has no other output: no
syndrome, no corrected codeword, no flag (R17, R41). -/
inductive Out where
  /-- the codeword row at `enc_c` -/
  | codeword (c : CwRow)
  /-- the message row at `dec_m` -/
  | message (m : MsgRow)
deriving DecidableEq, Repr

/-- The host's record of one completed transaction: the slot, the row presented and the row read back (R82, R101). -/
structure Done where
  slot : Slot
  drive : Drive
  out : Out
deriving DecidableEq, Repr

/-- The block and the host's side of its ports. -/
structure State where
  /-- the block's own state: nothing (R10) -/
  block : Block
  /-- `enc_m` of every ENC instance (R40, R87) -/
  encM : Bank MsgRow
  /-- `dec_r` of every DEC instance (R41, R87) -/
  decR : Bank CwRow
  /-- where the host stands in its batch (R79, R82) -/
  slot : Slot
  /-- the transactions the host has still to issue, next first (R47, R82) -/
  pending : List Job
  /-- the transactions the host has completed, oldest first (R82, R101) -/
  done : List Done
deriving DecidableEq, Repr

/-- The machine at power-on. The block has nothing to reset (R22, R102, R103). One instance of each unit (R6's table).
DESIGN CHOICE (log entry 2): the input wires carry 0 and the host's slot is 0, the spec giving the host's wires no
value. Nothing is pending and nothing done (log entry 3). -/
def State.reset : State where
  block := ⟨⟩
  encM := ⟨0, List.replicate (Config.defaultInstances - 1) 0⟩
  decR := ⟨0, List.replicate (Config.defaultInstances - 1) 0⟩
  slot := ⟨0, 0⟩
  pending := []
  done := []

end Sys2Proof.Machine
end

