-- ==== Sys2Proof/Machine/Ops.lean ====
section
/-! DEFINITION. The named operations over the state: the ports of the replicated instances (R87) and the host's issuing
and recording of transactions (R82, R101). There is no memory (R23) and no exception to take or to return from (R89,
R93, R94), so no operation for either. -/

namespace Sys2Proof.Machine

/-- `N_INST` of a unit (R87): the number of its instances, at least 1. -/
def Bank.size {α : Type} (b : Bank α) : Nat := b.rest.length + 1

/-- The instance an instance number names: the number modulo the number of instances built (log entry 4). -/
def Bank.index {α : Type} (b : Bank α) (k : Nat) : Nat := k % b.size

/-- The row at the input port of instance k. -/
def Bank.get {α : Type} (b : Bank α) (k : Nat) : α :=
  match b.index k with
  | 0 => b.first
  | j + 1 => b.rest.getD j b.first

/-- The host presents a row at the input port of instance k; every other instance's port is left alone (R87). -/
def Bank.set {α : Type} (b : Bank α) (k : Nat) (v : α) : Bank α :=
  match b.index k with
  | 0 => { b with first := v }
  | j + 1 => { b with rest := b.rest.set j v }

/-- The host turns to a job: its slot becomes the current one and the job is no longer pending (R82). -/
def State.select (s : State) (j : Job) (rest : List Job) : State := { s with slot := j.slot, pending := rest }

/-- The host records a completed transaction: the row it presented and the row it read (R82, R101). -/
def State.record (s : State) (d : Drive) (o : Out) : State := { s with done := s.done ++ [⟨s.slot, d, o⟩] }

/-- The host adds transactions to those it will issue (R82). -/
def State.issue (s : State) (jobs : List Job) : State := { s with pending := s.pending ++ jobs }

end Sys2Proof.Machine
end

