-- ==== Sys2Proof/Machine/Operands.lean ====
section
/-! DEFINITION. The one operand form: by value, the whole row at the unit's input port (R24, R28, R40, R41). -/

namespace Sys2Proof.Machine

/-- The row on `enc_m` of ENC instance k (R40, R87). -/
def State.encInput (s : State) (k : Nat) : MsgRow := s.encM.get k

/-- The row on `dec_r` of DEC instance k (R41, R87). -/
def State.decInput (s : State) (k : Nat) : CwRow := s.decR.get k

/-- The host presents a message row at `enc_m` of the slot's ENC instance (R82, R107). -/
def State.presentEnc (s : State) (m : MsgRow) : State := { s with encM := s.encM.set s.slot.inst m }

/-- The host presents a received row at `dec_r` of the slot's DEC instance (R82, R107). -/
def State.presentDec (s : State) (r : CwRow) : State := { s with decR := s.decR.set s.slot.inst r }

end Sys2Proof.Machine
end

