-- ==== Sys2Proof/Machine/Correct.lean ====
section
/-! DEFINITION. Unit DEC: the function CORRECT (R62 to R69), the output port `dec_m` (R41, R106) and the CORRECT
transaction. -/

namespace Sys2Proof.Machine

/-- `fix`: the working copy after the correction step: the row itself at index -1, else the row with position index
complemented (R65, R66). -/
def fixRow (r : CwRow) : CwRow :=
  if wrongBitIndex r = -1 then r else flipAt r (wrongBitIndex r).toNat

/-- The 4 bits at codeword positions DAT, in that exact order (R68). -/
def extractRow (c : CwRow) : MsgRow := rowOf 4 fun j => pos c (dat j)

/-- CORRECT(r) (R69). -/
def correctRow (r : CwRow) : MsgRow := extractRow (fixRow r)

/-- The row on `dec_m` of DEC instance k: at all times the function of the row on its `dec_r` (R22, R106). -/
def State.decM (s : State) (k : Nat) : MsgRow := correctRow (s.decInput k)

/-- The CORRECT transaction (R28, R82): the host presents r at `dec_r` of the slot's instance, reads `dec_m` of that
instance and records what it read. Nothing is signalled, whatever the number of flips (R72, R74, R90). -/
def execCorrect (r : CwRow) (s : State) : Host.Outcome State Fault Refusal :=
  .next ((s.presentDec r).record (.decR r) (.message ((s.presentDec r).decM s.slot.inst)))

end Sys2Proof.Machine
end

