-- ==== Sys2Proof/Machine/Encode.lean ====
section
/-! DEFINITION. Unit ENC: the function ENCODE (R52), the output port `enc_c` (R40, R106) and the ENCODE transaction. -/

namespace Sys2Proof.Machine

/-- `t[i]`: row i of G times the message row, over the integers (R52). -/
def encodeSum (m : MsgRow) (i : Nat) : Nat :=
  gEntry i 0 * bitNat (pos m 0) + gEntry i 1 * bitNat (pos m 1) + gEntry i 2 * bitNat (pos m 2)
    + gEntry i 3 * bitNat (pos m 3)

/-- ENCODE(m): every entry of `G . row` reduced modulo 2 (R52). -/
def encodeRow (m : MsgRow) : CwRow := rowOf 7 fun i => mod2 (encodeSum m i)

/-- The row on `enc_c` of ENC instance k: at all times the function of the row on its `enc_m` (R22, R106). -/
def State.encC (s : State) (k : Nat) : CwRow := encodeRow (s.encInput k)

/-- The ENCODE transaction (R28, R82): the host presents m at `enc_m` of the slot's instance, reads `enc_c` of that
instance and records what it read. No flag, no exception, no state of the block (R57). -/
def execEncode (m : MsgRow) (s : State) : Host.Outcome State Fault Refusal :=
  .next ((s.presentEnc m).record (.encM m) (.codeword ((s.presentEnc m).encC s.slot.inst)))

end Sys2Proof.Machine
end

