-- ==== Sys2Proof/Machine/Dispatch.lean ====
section
/-! DEFINITION. One arm per operation of the operation map (R43). -/

namespace Sys2Proof.Machine

def exec (i : Instr) (s : State) : Host.Outcome State Fault Refusal :=
  match i with
  | .encode m => Sys2Proof.Machine.execEncode m s
  | .correct r => Sys2Proof.Machine.execCorrect r s

end Sys2Proof.Machine
end

