-- ==== Sys2Proof/Machine/Step.lean ====
section
/-! DEFINITION. One step: the host's next transaction, one row through one unit (R82, R106). -/

namespace Sys2Proof.Machine

/-- One step: the host issues its next pending transaction and the unit whose port it drives computes it (R42, R82).
DEDUCED (log entry 3): with nothing pending, no transaction happens and nothing changes (R81, R108: nothing in
flight). -/
def step (s : State) : Host.Outcome State Fault Refusal :=
  match s.pending with
  | [] => .next s
  | j :: rest => exec (decodeDrive j.drive) (s.select j rest)

/-- The host is to issue the transaction of a table word next, at its present slot. A word that fits no port cannot be
presented, and then nothing changes (R27, R45; log entry 5). -/
def State.withFetchWord (s : State) (nbits w : Nat) : State :=
  match tableDrive nbits w with
  | none => s
  | some d => { s with pending := ⟨s.slot, d⟩ :: s.pending }

end Sys2Proof.Machine
end

