-- ==== Sys2Proof/Machine/Batch.lean ====
section
/-! DEFINITION. Batches (R39, R77 to R81): the two functions over batches, a batch as transactions of the machine (R82)
and the output batch the host assembles (R79). The block itself sees one row at a time (R21). -/

namespace Sys2Proof.Machine

/-- `encode(B) = map ENCODE B` (R77). -/
def encodeBatch (batch : List MsgRow) : List CwRow := batch.map encodeRow

/-- `correct(B) = map CORRECT B` (R78). -/
def correctBatch (batch : List CwRow) : List MsgRow := batch.map correctRow

/-- The row the unit of a driven port gives back (R42, R82). -/
def resultOf : Drive → Out
  | .encM m => .codeword (encodeRow m)
  | .decR r => .message (correctRow r)

/-- The N transactions of a batch of N rows, row n at index n, issued in order on one instance; one choice among all the
schedules the host has (R82, U4). -/
def batchJobs (rows : List Drive) : List Job := rows.zipIdx.map fun d => ⟨⟨d.2, 0⟩, d.1⟩

/-- The result the host has for row n: the first record that carries that index (R79, R82). -/
def outputRow (records : List Done) (n : Nat) : Option Out :=
  (records.find? fun d => d.slot.row == n).map (·.out)

/-- The output batch of N rows: the result of row n at index n (R79, R82). -/
def assemble (N : Nat) (records : List Done) : List (Option Out) := (List.range N).map (outputRow records)

/-- Run a machine state for n transactions (R108). -/
def runSteps (n : Nat) (s : State) : Host.Outcome State Fault Refusal := Sys2Proof.core.run n s

/-- A batch call: issue the N transactions and run until all N result rows have been produced (R82, R108).
DESIGN CHOICE (log entry 11): the spec leaves the schedule free (R82, U4) and gives the host no queue. Here a batch call
stands behind the transactions already pending, the host issues those first, and the call ends when none of either is
pending: after N steps when nothing was pending, after the earlier ones and N more otherwise. -/
def runBatch (rows : List Drive) (s : State) : Host.Outcome State Fault Refusal :=
  runSteps (s.pending.length + rows.length) (s.issue (batchJobs rows))

end Sys2Proof.Machine
end

