-- ==== Sys2Proof/Machine/Collaborator.lean ====
section
/-! DEFINITION. The host's contract with the block (R97 to R101): a text source becomes a validated bit matrix or one of
three failures, and only a validated batch is put through the block (R100). The host is outside the block (R4); what the
spec leaves to it is opaque in Config (D19, log entry 6). -/

namespace Sys2Proof.Machine

/-- The host's three failure kinds (R97, R98, R99): values it reports instead of using the block, no exceptions of the
block (R89, R100). -/
inductive HostFailure where
  /-- the "file/stream cannot be opened or read" (R97) -/
  | sourceUnavailable
  /-- a line's length is not the operation's width; the line's number and its actual length (R98) -/
  | lengthMismatch (line actual : Nat)
  /-- a line contains a symbol other than '0' and '1'; the line's number and the character (R99) -/
  | invalidCharacter (line : Nat) (symbol : Char)
deriving DecidableEq, Repr

/-- The prompt's mode: 'e' is encode, 'd' is decode, that is CORRECT (R49, C5). -/
def modePort (c : Char) : Option Port :=
  if c = 'e' then some .encM else if c = 'd' then some .decR else none

/-- The prompt's retry loop, "read mode, validate 'e'/'d', repeat" (R49): the mode and the characters not yet read, or
none when the input ends first. -/
def promptMode : List Char → Option (Port × List Char)
  | [] => none
  | c :: cs =>
    match modePort c with
    | some p => some (p, cs)
    | none => promptMode cs

/-- Every defect of one line of a source, the line having index n counted from 0 (R98, R99). -/
def lineDefects (p : Port) (line : List Char) (n : Nat) : List HostFailure :=
  (if line.length = p.width then [] else [.lengthMismatch (Config.firstLineNumber + n) line.length])
    ++ (line.filter fun c => (charBit c).isNone).map (.invalidCharacter (Config.firstLineNumber + n))

/-- Every defect of a source, line by line (R98, R99, R100: the whole source is validated). -/
def sourceDefects (p : Port) (lines : List (List Char)) : List HostFailure :=
  lines.zipIdx.flatMap fun l => lineDefects p l.1 l.2

/-- The failure the host reports of a source with defects: one of them, which one being the host's choice (R100, D19). -/
def reportDefect (p : Port) (lines : List (List Char)) (d : HostFailure) (ds : List HostFailure) : HostFailure :=
  (d :: ds).getD (Config.reportedDefect p.width lines % (ds.length + 1)) d

/-- A validated line as a row: character n is position n (R48, D4). -/
def lineBits (line : List Char) : List Bit := line.filterMap charBit

/-- Read a source (none: it cannot be opened or read): "a validated rectangular bit matrix in", or a failure (R4, R97 to
R100).
DESIGN CHOICE (log entry 6): a stream that becomes unreadable before its end is none too, whatever lines were read before,
so it always gives source-unavailable, also when one of those lines was defective; the spec leaves open which failure wins
there (R100, D19). -/
def acquire (p : Port) (source : Option (List (List Char))) : Except HostFailure (List (List Bit)) :=
  match source with
  | none => .error .sourceUnavailable
  | some lines =>
    match sourceDefects p lines with
    | [] => .ok (lines.map lineBits)
    | d :: ds => .error (reportDefect p lines d ds)

/-- A validated row at the port it is meant for (R48). -/
def rowDrive (p : Port) (bits : List Bit) : Drive :=
  match p with
  | .encM => .encM (rowOfBits 4 bits)
  | .decR => .decR (rowOfBits 7 bits)

/-- The host's call: validate the whole source, then put every row through the block; on a failure the block is not used
at all (R100). -/
def hostCall (p : Port) (source : Option (List (List Char))) (s : State) :
    Except HostFailure (Host.Outcome State Fault Refusal) :=
  match acquire p source with
  | .error f => .error f
  | .ok rows => .ok (runBatch (rows.map (rowDrive p)) s)

/-- An output row as its row string (R50). -/
def renderOut : Out → List Char
  | .codeword c => rowString c
  | .message m => rowString m

/-- An output batch as lines of text, one row per line (R50). -/
def renderBatch (outs : List (Option Out)) : List (List Char) := outs.filterMap (Option.map renderOut)

end Sys2Proof.Machine
end

