-- ==== Sys2Proof/Machine/Script.lean ====
section
/-! DEFINITION. The transaction script (R47, D13): one transaction per line, mnemonic and row string, text from `;` to
the end of the line a comment. -/

namespace Sys2Proof.Machine

/-- Why a line is no transaction (R47, R45). -/
inductive ScriptError where
  /-- neither a comment line nor a mnemonic with one operand -/
  | badForm
  /-- the mnemonic is neither ENCODE nor CORRECT -/
  | unknownMnemonic
  /-- an operand character other than '0' and '1' -/
  | badRow
  /-- an operand of another width than the operation's (R45) -/
  | badWidth (e : DecodeError)
deriving DecidableEq, Repr

def encodeMnemonic : List Char := ['E', 'N', 'C', 'O', 'D', 'E']

def correctMnemonic : List Char := ['C', 'O', 'R', 'R', 'E', 'C', 'T']

/-- Cut a text at its blanks; two blanks side by side leave an empty word between them. -/
def splitBlanks : List Char → List (List Char)
  | [] => []
  | c :: cs =>
    if c = ' ' then [] :: splitBlanks cs
    else
      match splitBlanks cs with
      | [] => [[c]]
      | w :: ws => (c :: w) :: ws

/-- The words of a line before its comment (R47). -/
def lineWords (line : List Char) : List (List Char) :=
  (splitBlanks (line.takeWhile (· != ';'))).filter (· != [])

/-- The port a mnemonic selects (R43, R47). -/
def mnemonicPort (w : List Char) : Option Port :=
  if w = encodeMnemonic then some .encM else if w = correctMnemonic then some .decR else none

/-- The transaction of a port and a row string, if the width is the port's (R45, R47). -/
def parseOperand (p : Port) (w : List Char) : Except ScriptError Instr :=
  match bitsOfString w with
  | none => .error .badRow
  | some bits =>
    match decode ⟨p, bits⟩ with
    | .ok i => .ok i
    | .error e => .error (.badWidth e)

/-- One line of a script: a transaction, or none for a line that holds only a comment (R47). -/
def parseLine (line : List Char) : Except ScriptError (Option Instr) :=
  match lineWords line with
  | [] => .ok none
  | [w, operand] =>
    match mnemonicPort w with
    | none => .error .unknownMnemonic
    | some p => (parseOperand p operand).map some
  | _ => .error .badForm

/-- A whole script, top to bottom; the first line that is no transaction is the error (R47). -/
def parseScript : List (List Char) → Except ScriptError (List Instr)
  | [] => .ok []
  | l :: ls =>
    match parseLine l, parseScript ls with
    | .error e, _ => .error e
    | .ok _, .error e => .error e
    | .ok none, .ok is => .ok is
    | .ok (some i), .ok is => .ok (i :: is)

/-- A transaction as a line of a script (R47). -/
def scriptLine : Instr → List Char
  | .encode m => encodeMnemonic ++ ' ' :: rowString m
  | .correct r => correctMnemonic ++ ' ' :: rowString r

/-- A transaction with its result in the comment after `->` (R47). -/
def scriptLineWithResult (i : Instr) : List Char :=
  scriptLine i ++ [' ', ';', ' ', '-', '>', ' ']
    ++ match resultOf (encodeDrive i) with
       | .codeword c => rowString c
       | .message m => rowString m

/-- The transactions of a script, executed top to bottom (R47). -/
def scriptJobs (is : List Instr) : List Job := batchJobs (is.map encodeDrive)

end Sys2Proof.Machine
end

