-- ==== Sys2Proof/Safety.lean ====
section
/-! DEFINITION. What a safe run is, and what a state's record of transactions promises, in the terms the statements
use. -/

namespace Sys2Proof

/-- A completed transaction agrees with the laws of the code: an encoded row is a codeword (zero syndrome, R56) that carries
the message at the data positions (R55), and a corrected row's message is the one whose codeword lies within one flip of
the row presented (R73). -/
def Machine.Done.lawful (d : Machine.Done) : Bool :=
  match d.drive, d.out with
  | .encM m, .codeword c => Machine.syndrome c == 0 && Machine.extractRow c == m
  | .decR r, .message m => decide (Machine.distance (Machine.encodeRow m) r ≤ 1)
  | .encM _, .message _ => false
  | .decR _, .codeword _ => false

/-- The invariant: every completed transaction on record is lawful. -/
def Machine.State.Inv (s : Machine.State) : Prop := ∀ d ∈ s.done, d.lawful = true

/-- A run never stops: n steps answer a next state, for every n (R89, R108). -/
def Machine.State.NeverStops (s : Machine.State) : Prop := ∀ n, ∃ t, Machine.runSteps n s = .next t

end Sys2Proof
end

