-- ==== Sys2Proof/Certificates/Slice0/Obligations.lean ====
section
/-! DEFINITION. The statements for the provers. Each docstring names the rule it formalises. -/

open Sys2Proof Sys2Proof.Machine

/- ### The constants -/

/-- R19: the integer product H . G, entry by entry, and every entry even. -/
def Obligations.ParityCheckTimesGeneratorIsEven : Prop :=
  ((List.range 3).map fun i => (List.range 4).map (hgEntry i)) = [[2, 2, 0, 2], [2, 0, 2, 2], [0, 2, 2, 2]] ∧
  (∀ i j, hgEntry i j = ((List.range 7).map fun l => hEntry i l * gEntry l j).sum) ∧
  ∀ i, i < 3 → ∀ j, j < 4 → hgEntry i j % 2 = 0

/-- R11, R12, R13: the printed entries of G, H, PAR and DAT; column j of H reads j + 1; PAR and DAT are disjoint and
together all of 0..6. -/
def Obligations.WiringIsAsPrinted : Prop :=
  ((List.range 7).map fun i => (List.range 4).map (gEntry i)) =
    [[1, 1, 0, 1], [1, 0, 1, 1], [1, 0, 0, 0], [0, 1, 1, 1], [0, 1, 0, 0], [0, 0, 1, 0], [0, 0, 0, 1]] ∧
  ((List.range 3).map fun i => (List.range 7).map (hEntry i)) =
    [[1, 0, 1, 0, 1, 0, 1], [0, 1, 1, 0, 0, 1, 1], [0, 0, 0, 1, 1, 1, 1]] ∧
  (∀ j, j < 7 → hEntry 0 j + 2 * hEntry 1 j + 4 * hEntry 2 j = j + 1) ∧
  ((List.range 4).map dat) = [2, 4, 5, 6] ∧ parColumns = [0, 1, 3] ∧
  ∀ p, p < 7 → (p ∈ parColumns ↔ ¬ p ∈ datColumns)

/- ### ENCODE -/

/-- R52, R53: in every state the ENCODE transaction completes. What the host reads at `enc_c` of the instance it used is,
at each position, the row of `G . m` over the integers modulo 2, and equally the seven XORs written out. -/
def Obligations.EncodeTransactionReturnsCodeword : Prop :=
  ∀ (m : MsgRow) (s : State), ∃ t c, exec (.encode m) s = .next t ∧
    t.done = s.done ++ [⟨s.slot, .encM m, .codeword c⟩] ∧ t.encC s.slot.inst = c ∧
    (∀ i, i < 7 → pos c i =
      decide ((gEntry i 0 * bitNat (pos m 0) + gEntry i 1 * bitNat (pos m 1) + gEntry i 2 * bitNat (pos m 2)
        + gEntry i 3 * bitNat (pos m 3)) % 2 = 1)) ∧
    pos c 0 = (pos m 0 ^^ pos m 1 ^^ pos m 3) ∧
    pos c 1 = (pos m 0 ^^ pos m 2 ^^ pos m 3) ∧
    pos c 2 = pos m 0 ∧
    pos c 3 = (pos m 1 ^^ pos m 2 ^^ pos m 3) ∧
    pos c 4 = pos m 1 ∧
    pos c 5 = pos m 2 ∧
    pos c 6 = pos m 3

/-- R55: the codeword carries the message at the data positions in order, rows 2, 4, 5, 6 of G are the unit rows, and the
parity positions hold their XORs. -/
def Obligations.CodewordCarriesMessageInOrder : Prop :=
  ∀ m : MsgRow,
    (∀ j, j < 4 → pos (encodeRow m) (dat j) = pos m j) ∧
    pos (encodeRow m) 2 = pos m 0 ∧ pos (encodeRow m) 4 = pos m 1 ∧
    pos (encodeRow m) 5 = pos m 2 ∧ pos (encodeRow m) 6 = pos m 3 ∧
    (∀ i, i < 4 → ∀ j, j < 4 → gEntry (dat i) j = if i = j then 1 else 0) ∧
    pos (encodeRow m) 0 = (pos m 0 ^^ pos m 1 ^^ pos m 3) ∧
    pos (encodeRow m) 1 = (pos m 0 ^^ pos m 2 ^^ pos m 3) ∧
    pos (encodeRow m) 3 = (pos m 1 ^^ pos m 2 ^^ pos m 3)

/-- R58: the complete function table of ENCODE, in the rule's order: port value in, port value out, the seven integer
sums, the weight. -/
def Obligations.EncodeFunctionTable : Prop :=
  ∀ row ∈ ([(0x0, 0x00, [0, 0, 0, 0, 0, 0, 0], 0), (0x8, 0x4B, [1, 1, 0, 1, 0, 0, 1], 4),
      (0x4, 0x2A, [0, 1, 0, 1, 0, 1, 0], 3), (0xC, 0x61, [1, 2, 0, 2, 0, 1, 1], 3),
      (0x2, 0x19, [1, 0, 0, 1, 1, 0, 0], 3), (0xA, 0x52, [2, 1, 0, 2, 1, 0, 1], 3),
      (0x6, 0x33, [1, 1, 0, 2, 1, 1, 0], 4), (0xE, 0x78, [2, 2, 0, 3, 1, 1, 1], 4),
      (0x1, 0x07, [1, 1, 1, 0, 0, 0, 0], 3), (0x9, 0x4C, [2, 2, 1, 1, 0, 0, 1], 3),
      (0x5, 0x2D, [1, 2, 1, 1, 0, 1, 0], 4), (0xD, 0x66, [2, 3, 1, 2, 0, 1, 1], 4),
      (0x3, 0x1E, [2, 1, 1, 1, 1, 0, 0], 4), (0xB, 0x55, [3, 2, 1, 2, 1, 0, 1], 4),
      (0x7, 0x34, [2, 2, 1, 2, 1, 1, 0], 3), (0xF, 0x7F, [3, 3, 1, 3, 1, 1, 1], 7)] :
      List (Nat × Nat × List Nat × Nat)),
    (encodeRow (BitVec.ofNat 4 row.1)).toNat = row.2.1 ∧
    (List.range 7).map (encodeSum (BitVec.ofNat 4 row.1)) = row.2.2.1 ∧
    weight (encodeRow (BitVec.ofNat 4 row.1)) = row.2.2.2

/-- R59: ENCODE is linear and injective, the minimum distance is 3 and attained, the weight distribution is 1, 7, 7, 1 at
0, 3, 4, 7, and the codewords are exactly the rows with zero syndrome. -/
def Obligations.CodeIsLinearWithDistanceThree : Prop :=
  (∀ a b : MsgRow, encodeRow (a ^^^ b) = encodeRow a ^^^ encodeRow b) ∧ encodeRow 0#4 = 0#7 ∧
  (∀ a b : MsgRow, encodeRow a = encodeRow b → a = b) ∧
  (∀ a b : MsgRow, a ≠ b → 3 ≤ distance (encodeRow a) (encodeRow b)) ∧
  (∃ a b : MsgRow, distance (encodeRow a) (encodeRow b) = 3) ∧
  (∀ w, w ≤ 7 → ((List.range 16).map fun n => weight (encodeRow (BitVec.ofNat 4 n))).count w =
    if w = 0 ∨ w = 7 then 1 else if w = 3 ∨ w = 4 then 7 else 0) ∧
  ∀ c : CwRow, syndrome c = 0#3 ↔ ∃ m, encodeRow m = c

/-- R33, R57, R87: what an ENCODE transaction leaves unchanged. Only `enc_m` of the instance the host used carries a new
row, the row presented; every other ENC instance, every DEC instance, the block, the host's slot, its pending
transactions and its earlier records are as before.
That the rows on the other ports stay is the model's choice of a host, which changes a port only in a transaction (log
entry 8, DESIGN CHOICE); the block never drives an input port (R33). -/
def Obligations.EncodeTransactionFrame : Prop :=
  ∀ (m : MsgRow) (s t : State), exec (.encode m) s = .next t →
    t.block = s.block ∧ t.decR = s.decR ∧ t.slot = s.slot ∧ t.pending = s.pending ∧
    t.encM.size = s.encM.size ∧ t.encInput s.slot.inst = m ∧
    (∀ k, s.encM.index k ≠ s.encM.index s.slot.inst →
      t.encInput k = s.encInput k ∧ t.encC k = s.encC k) ∧
    t.done.length = s.done.length + 1 ∧ ∀ n, n < s.done.length → t.done[n]? = s.done[n]?

/- ### CORRECT -/

/-- R62, R63: the syndrome is `H . r` modulo 2, that is three XORs of four received bits. -/
def Obligations.SyndromeIsThreeXors : Prop :=
  ∀ r : CwRow,
    (∀ i, i < 3 → pos (syndrome r) i =
      decide (((List.range 7).map fun j => hEntry i j * bitNat (pos r j)).sum % 2 = 1)) ∧
    pos (syndrome r) 0 = (pos r 0 ^^ pos r 2 ^^ pos r 4 ^^ pos r 6) ∧
    pos (syndrome r) 1 = (pos r 1 ^^ pos r 2 ^^ pos r 5 ^^ pos r 6) ∧
    pos (syndrome r) 2 = (pos r 3 ^^ pos r 4 ^^ pos r 5 ^^ pos r 6)

/-- R65, R66: index -1 means exactly a zero syndrome and leaves the working copy equal to the row; any other index is a
position in 0..6, and exactly that position of the working copy is complemented. -/
def Obligations.CorrectionComplementsIndexedPosition : Prop :=
  ∀ r : CwRow,
    wrongBitIndex r = (bitNat (pos (syndrome r) 0) : Int) + 2 * bitNat (pos (syndrome r) 1)
      + 4 * bitNat (pos (syndrome r) 2) - 1 ∧
    (wrongBitIndex r = -1 ↔ syndromeK r = 0) ∧
    (wrongBitIndex r = -1 ↔ pos (syndrome r) 0 = false ∧ pos (syndrome r) 1 = false ∧ pos (syndrome r) 2 = false) ∧
    (wrongBitIndex r = -1 → fixRow r = r) ∧
    (wrongBitIndex r ≠ -1 → 0 ≤ wrongBitIndex r ∧ wrongBitIndex r ≤ 6 ∧
      fixRow r = r ^^^ unitRow (wrongBitIndex r).toNat ∧ distance (fixRow r) r = 1) ∧
    ∀ p, p < 7 → pos (fixRow r) p = (pos r p ^^ decide (syndromeK r = p + 1))

/-- R67: the syndrome-to-position table. The row of the table that a received row's syndrome selects gives k, index and
the port value of the mask `fix ^ r`; the mask is 0 when k is 0 and `2^(k-1)` otherwise; every non-zero syndrome is
column `index` of H. -/
def Obligations.SyndromeToPositionTable : Prop :=
  ∀ r : CwRow,
    ([(0, 0, 0, 0, -1, 0x00), (1, 0, 0, 1, 0, 0x01), (0, 1, 0, 2, 1, 0x02), (1, 1, 0, 3, 2, 0x04),
      (0, 0, 1, 4, 3, 0x08), (1, 0, 1, 5, 4, 0x10), (0, 1, 1, 6, 5, 0x20), (1, 1, 1, 7, 6, 0x40)] :
      List (Nat × Nat × Nat × Nat × Int × Nat))[syndromeK r]? =
    some (bitNat (pos (syndrome r) 0), bitNat (pos (syndrome r) 1), bitNat (pos (syndrome r) 2),
      syndromeK r, wrongBitIndex r, (fixRow r ^^^ r).toNat) ∧
    (fixRow r ^^^ r).toNat = (if syndromeK r = 0 then 0 else 2 ^ (syndromeK r - 1)) ∧
    (syndromeK r ≠ 0 → ∀ i, i < 3 → bitNat (pos (syndrome r) i) = hEntry i (wrongBitIndex r).toNat)

/-- R68: extraction reads positions 2, 4, 5, 6 of the working copy in that order, and nothing else of it. -/
def Obligations.ExtractionReadsDataPositions : Prop :=
  (∀ r : CwRow, bitsOf (correctRow r) =
    [pos (fixRow r) 2, pos (fixRow r) 4, pos (fixRow r) 5, pos (fixRow r) 6] ∧
    ∀ j, j < 4 → pos (correctRow r) j = pos (fixRow r) (dat j)) ∧
  ∀ c : CwRow, ∀ p, p ∈ parColumns → extractRow (c ^^^ unitRow p) = extractRow c

/-- R69: in every state the CORRECT transaction completes. What the host reads at `dec_m` of the instance it used is the
rule's procedure, written out here, and equally the four port equations. -/
def Obligations.CorrectTransactionReturnsMessage : Prop :=
  ∀ (r : CwRow) (s : State), ∃ t m, exec (.correct r) s = .next t ∧
    t.done = s.done ++ [⟨s.slot, .decR r, .message m⟩] ∧ t.decM s.slot.inst = m ∧
    let s0 := pos r 0 ^^ pos r 2 ^^ pos r 4 ^^ pos r 6
    let s1 := pos r 1 ^^ pos r 2 ^^ pos r 5 ^^ pos r 6
    let s2 := pos r 3 ^^ pos r 4 ^^ pos r 5 ^^ pos r 6
    let index : Int := bitNat s0 + 2 * bitNat s1 + 4 * bitNat s2 - 1
    let fix := if index = -1 then r else r ^^^ unitRow index.toNat
    bitsOf m = [pos fix 2, pos fix 4, pos fix 5, pos fix 6] ∧
    pos m 0 = (pos r 2 ^^ (s0 && s1 && !s2)) ∧
    pos m 1 = (pos r 4 ^^ (s0 && !s1 && s2)) ∧
    pos m 2 = (pos r 5 ^^ (!s0 && s1 && s2)) ∧
    pos m 3 = (pos r 6 ^^ (s0 && s1 && s2))

/-- R73: the complete function table of CORRECT (the `dec_m` column as printed), which with the facts stated beside it
fixes every other column: `fix` is the codeword of the output, k is 0 when nothing is complemented and else one more
than the complemented position, and index is k - 1. Every row is within distance 1 of exactly one codeword, so the
guarantee alone fixes the output, and each output value occurs 8 times. -/
def Obligations.CorrectFunctionTable : Prop :=
  ((List.range 128).map fun n => (correctRow (BitVec.ofNat 7 n)).toNat) =
    [0x0, 0x0, 0x0, 0x1, 0x0, 0x1, 0x1, 0x1, 0x0, 0x2, 0x4, 0x8, 0x9, 0x5, 0x3, 0x1] ++
    [0x0, 0x2, 0xA, 0x6, 0x7, 0xB, 0x3, 0x1, 0x2, 0x2, 0x3, 0x2, 0x3, 0x2, 0x3, 0x3] ++
    [0x0, 0xC, 0x4, 0x6, 0x7, 0x5, 0xD, 0x1, 0x4, 0x5, 0x4, 0x4, 0x5, 0x5, 0x4, 0x5] ++
    [0x7, 0x6, 0x6, 0x6, 0x7, 0x7, 0x7, 0x6, 0xE, 0x2, 0x4, 0x6, 0x7, 0x5, 0x3, 0xF] ++
    [0x0, 0xC, 0xA, 0x8, 0x9, 0xB, 0xD, 0x1, 0x9, 0x8, 0x8, 0x8, 0x9, 0x9, 0x9, 0x8] ++
    [0xA, 0xB, 0xA, 0xA, 0xB, 0xB, 0xA, 0xB, 0xE, 0x2, 0xA, 0x8, 0x9, 0xB, 0x3, 0xF] ++
    [0xC, 0xC, 0xD, 0xC, 0xD, 0xC, 0xD, 0xD, 0xE, 0xC, 0x4, 0x8, 0x9, 0x5, 0xD, 0xF] ++
    [0xE, 0xC, 0xA, 0x6, 0x7, 0xB, 0xD, 0xF, 0xE, 0xE, 0xE, 0xF, 0xE, 0xF, 0xF, 0xF] ∧
  (∀ r : CwRow, syndrome (fixRow r) = 0#3 ∧ encodeRow (correctRow r) = fixRow r ∧
    fixRow r ^^^ r = (if syndromeK r = 0 then 0#7 else unitRow (syndromeK r - 1)) ∧
    wrongBitIndex r = (syndromeK r : Int) - 1) ∧
  (∀ (r : CwRow) (m : MsgRow), distance (encodeRow m) r ≤ 1 ↔ encodeRow m = fixRow r) ∧
  (∀ (r : CwRow) (m : MsgRow), distance (encodeRow m) r ≤ 1 → correctRow r = m) ∧
  ∀ m : MsgRow, ((List.range 128).map fun n => correctRow (BitVec.ofNat 7 n)).count m = 8

/-- R33, R74, R75, R87: what a CORRECT transaction leaves unchanged, the row presented at `dec_r` among it.
That the rows on the other ports stay is the model's choice of a host, which changes a port only in a transaction (log
entry 8, DESIGN CHOICE); the block never drives an input port (R33). -/
def Obligations.CorrectTransactionFrame : Prop :=
  ∀ (r : CwRow) (s t : State), exec (.correct r) s = .next t →
    t.block = s.block ∧ t.encM = s.encM ∧ t.slot = s.slot ∧ t.pending = s.pending ∧
    t.decR.size = s.decR.size ∧ t.decInput s.slot.inst = r ∧
    (∀ k, s.decR.index k ≠ s.decR.index s.slot.inst →
      t.decInput k = s.decInput k ∧ t.decM k = s.decM k) ∧
    t.done.length = s.done.length + 1 ∧ ∀ n, n < s.done.length → t.done[n]? = s.done[n]?

/-- R86: two flips are always miscorrected to another codeword, through a third position; three flips never give the
message sent, and pass as clean exactly when their positions are the support of a weight-3 codeword; ENCODE after
CORRECT moves to the nearest codeword. -/
def Obligations.TwoOrThreeFlipsNeverRecover : Prop :=
  (∀ (m : MsgRow) (p q : Fin 7), p ≠ q →
    let r := encodeRow m ^^^ unitRow p ^^^ unitRow q
    correctRow r ≠ m ∧ syndrome r ≠ 0#3 ∧ (∃ m', m' ≠ m ∧ fixRow r = encodeRow m') ∧
    ∃ u : Fin 7, u ≠ p ∧ u ≠ q ∧ wrongBitIndex r = (u.val : Int) ∧ fixRow r = r ^^^ unitRow u) ∧
  (∀ (m : MsgRow) (p q u : Fin 7), p ≠ q → p ≠ u → q ≠ u →
    let r := encodeRow m ^^^ unitRow p ^^^ unitRow q ^^^ unitRow u
    correctRow r ≠ m ∧ (syndrome r = 0#3 → fixRow r = r) ∧
    (syndrome r = 0#3 ↔ ∃ m', encodeRow m' = unitRow p ^^^ unitRow q ^^^ unitRow u)) ∧
  (∀ r : CwRow, encodeRow (correctRow r) = fixRow r) ∧
  ∀ m : MsgRow, correctRow (encodeRow m) = m

/- ### The two operations together, on the machine -/

/-- R71, R83, R84, R85: for every message and every state, an ENCODE transaction followed by a CORRECT transaction of the
row it returned, clean or with any one position complemented, returns the message, whatever instances the host uses;
the clean row has zero syndrome, and in the flipped one the syndrome is that column of H, index is the position flipped
and `fix` the codeword. -/
def Obligations.OneFlipIsCorrectedOnTheMachine : Prop :=
  ∀ (m : MsgRow) (s : State) (a b : Slot) (rest : List Job),
    (s.pending = ⟨a, .encM m⟩ :: ⟨b, .decR (encodeRow m)⟩ :: rest →
      syndrome (encodeRow m) = 0#3 ∧ ∃ t, runSteps 2 s = .next t ∧ t.pending = rest ∧
      t.done = s.done ++ [⟨a, .encM m, .codeword (encodeRow m)⟩, ⟨b, .decR (encodeRow m), .message m⟩]) ∧
    ∀ p, p < 7 →
      s.pending = ⟨a, .encM m⟩ :: ⟨b, .decR (encodeRow m ^^^ unitRow p)⟩ :: rest →
      wrongBitIndex (encodeRow m ^^^ unitRow p) = (p : Int) ∧
      fixRow (encodeRow m ^^^ unitRow p) = encodeRow m ∧
      (∀ i, i < 3 → bitNat (pos (syndrome (encodeRow m ^^^ unitRow p)) i) = hEntry i p) ∧
      ∃ t, runSteps 2 s = .next t ∧ t.pending = rest ∧
        t.done = s.done ++ [⟨a, .encM m, .codeword (encodeRow m)⟩,
          ⟨b, .decR (encodeRow m ^^^ unitRow p), .message m⟩]

/-- R29: presenting the same row again gives the same output and changes no port of any instance. -/
def Obligations.RepeatedTransactionChangesNothing : Prop :=
  ∀ (i : Instr) (s t : State), exec i s = .next t →
    ∃ u o, exec i t = .next u ∧ u.encM = t.encM ∧ u.decR = t.decR ∧ u.block = t.block ∧
      t.done = s.done ++ [⟨s.slot, encodeDrive i, o⟩] ∧ u.done = t.done ++ [⟨s.slot, encodeDrive i, o⟩]

/-- R10, R28, R87: what a transaction returns depends on the row presented and on nothing else: two states that need
agree on nothing (other rows on the ports, other numbers of instances, another instance used, other transactions
before and after) get the same row back. -/
def Obligations.ResultDependsOnPresentedRowOnly : Prop :=
  ∀ (i : Instr) (s s' : State), ∃ t t' o, exec i s = .next t ∧ exec i s' = .next t' ∧
    t.done = s.done ++ [⟨s.slot, encodeDrive i, o⟩] ∧ t'.done = s'.done ++ [⟨s'.slot, encodeDrive i, o⟩]

/-- R22, R106: in every state, the one at power-on among them, the row at each output port of each instance is the
function of the row at its input port: the XOR equations of R53 and the port equations of R69. -/
def Obligations.OutputPortsFollowInputPorts : Prop :=
  ∀ (s : State) (k : Nat),
    bitsOf (s.encC k) =
      (let m := s.encInput k
       [pos m 0 ^^ pos m 1 ^^ pos m 3, pos m 0 ^^ pos m 2 ^^ pos m 3, pos m 0, pos m 1 ^^ pos m 2 ^^ pos m 3,
        pos m 1, pos m 2, pos m 3]) ∧
    bitsOf (s.decM k) =
      (let r := s.decInput k
       let s0 := pos r 0 ^^ pos r 2 ^^ pos r 4 ^^ pos r 6
       let s1 := pos r 1 ^^ pos r 2 ^^ pos r 5 ^^ pos r 6
       let s2 := pos r 3 ^^ pos r 4 ^^ pos r 5 ^^ pos r 6
       [pos r 2 ^^ (s0 && s1 && !s2), pos r 4 ^^ (s0 && !s1 && s2), pos r 5 ^^ (!s0 && s1 && s2),
        pos r 6 ^^ (s0 && s1 && s2)])

/- ### The machine -/

/-- The machine at power-on: one instance of each unit, nothing pending, nothing done. The zeros on the input wires and in
the host's slot are the model's choice (log entry 2); that nothing is pending is log entry 3. -/
def Obligations.PowerOnStateHasNothingToReset : Prop :=
  State.reset.block = ⟨⟩ ∧ State.reset.encM.size = 1 ∧ State.reset.decR.size = 1 ∧
  (∀ k, State.reset.encInput k = 0#4 ∧ State.reset.decInput k = 0#7) ∧
  State.reset.slot = ⟨0, 0⟩ ∧ State.reset.pending = [] ∧ State.reset.done = []

/-- R89: every transaction completes, from every state and for every operand, and there is no fault to stop with. The row
returned is what R55 and R56 (a codeword that carries the message) and R73 (a message whose codeword lies within one
flip) say. That a step answers a next state also with nothing pending is the model's (log entry 3, DEDUCED). -/
def Obligations.EveryTransactionCompletes : Prop :=
  (∀ (i : Instr) (s : State), ∃ t, exec i s = .next t ∧
    ∃ o, t.done = s.done ++ [⟨s.slot, encodeDrive i, o⟩] ∧
      match i, o with
      | .encode m, .codeword c => extractRow c = m ∧ syndrome c = 0#3
      | .correct r, .message m => distance (encodeRow m) r ≤ 1
      | .encode _, .message _ => False
      | .correct _, .codeword _ => False) ∧
  (∀ s : State, ∃ t, step s = .next t) ∧ ∀ _ : Fault, False

/-- R108: no run stops. A run of n steps completes n of the pending transactions in their order, as long as there are any:
a batch of N rows takes N transactions and cannot hang. That a run goes on, changing nothing, once nothing is pending is
the model's (log entry 3, DEDUCED). -/
def Obligations.RunsCompleteTheirTransactions : Prop :=
  (∀ s : State, s.NeverStops) ∧
  ∀ (n : Nat) (s t : State), runSteps n s = .next t →
    t.pending = s.pending.drop n ∧ t.done.take s.done.length = s.done ∧
    (t.done.drop s.done.length).map (fun d => (⟨d.slot, d.drive⟩ : Job)) = s.pending.take n

/-- The step runs the decoded transaction: with a job pending, a step is `exec` of the operation its port selects (R42), in
the state where the host has turned to the job's slot and the job is no longer pending; with none, nothing changes (log
entry 3). A table word placed by `withFetchWord` is run by the very next step; which operation a table word stands for is
the model's choice (log entry 5), and so is that placing one means issuing it next (log entry 3). -/
def Obligations.StepRunsTheDecodedTransaction : Prop :=
  (∀ (s : State) (j : Job) (rest : List Job), s.pending = j :: rest →
    step s = exec (decodeDrive j.drive) { s with slot := j.slot, pending := rest }) ∧
  (∀ (m : MsgRow) (r : CwRow), decodeDrive (.encM m) = .encode m ∧ decodeDrive (.decR r) = .correct r) ∧
  (∀ s : State, s.pending = [] → step s = .next s) ∧
  ∀ (s : State) (nbits w : Nat) (i : Instr), decodeTableWord nbits w = some i →
    step (s.withFetchWord nbits w) = exec i s

/-- R82, R87, R102: a step changes at most one input port: the port of the unit, and of the instance, that the next pending
transaction names. The numbers of instances never change.
That the rows on the other ports stay is the model's choice of a host, which changes a port only in a transaction (log
entry 8, DESIGN CHOICE); the block never drives an input port (R33). -/
def Obligations.StepDrivesOneInputPort : Prop :=
  ∀ s t : State, step s = .next t →
    t.block = s.block ∧ t.encM.size = s.encM.size ∧ t.decR.size = s.decR.size ∧
    (∀ k, t.encInput k ≠ s.encInput k → ∃ a m rest, s.pending = ⟨a, .encM m⟩ :: rest ∧
      s.encM.index k = s.encM.index a.inst ∧ t.encInput k = m) ∧
    (∀ k, t.decInput k ≠ s.decInput k → ∃ a r rest, s.pending = ⟨a, .decR r⟩ :: rest ∧
      s.decR.index k = s.decR.index a.inst ∧ t.decInput k = r)

/-- The invariant holds at power-on. -/
def Obligations.PowerOnRecordIsLawful : Prop := State.reset.Inv

/-- The invariant, from R55, R56 and R73: from every state whose record is lawful, whatever is pending, a step gives a state
whose record is lawful: every encoded row on record is a codeword that carries its message, every corrected row's
message is the one whose codeword lies within one flip of the row presented. -/
def Obligations.StepKeepsRecordLawful : Prop :=
  ∀ s t : State, s.Inv → step s = .next t → t.Inv

/- ### Decoding -/

/-- R42, R43: decoding and encoding are inverse on every instruction and on every row that decodes. -/
def Obligations.DecodeAndEncodeAreInverse : Prop :=
  (∀ i : Instr, i.wf = true ∧ (encode i).wf = true ∧ decode (encode i) = .ok i) ∧
  ∀ (raw : RawTxn) (i : Instr), decode raw = .ok i → encode i = raw

/-- R44, R45: a row of exactly the port's width decodes, whatever its bits, to the operation of that port; a row of any
other width is rejected by name. -/
def Obligations.ExactlyTheFullWidthRowsDecode : Prop :=
  ∀ raw : RawTxn,
    (raw.wf = true → ∃ i, decode raw = .ok i ∧ i.port = raw.port) ∧
    (raw.wf = false → decode raw = .error (.wrongWidth raw.port raw.bits.length))

/-- Rows written out position by position from R9, R37, R58 and R73: `1010` at `enc_m` is port value 5, `1011010` at
`dec_r` is port value 2D, and row `1000` is port value 1, not 8.
The last two clauses, that a table word's bit count 4 or 7 selects the port, are the model's choice (log entry 5, DESIGN
CHOICE): the spec has no opcode field (R42). -/
def Obligations.WrittenOutRowsDecode : Prop :=
  decode ⟨.encM, [true, false, true, false]⟩ = .ok (.encode 0x5#4) ∧
  decode ⟨.encM, [true, false, false, false]⟩ = .ok (.encode 0x1#4) ∧
  decode ⟨.decR, [true, false, true, true, false, true, false]⟩ = .ok (.correct 0x2D#7) ∧
  decode ⟨.decR, [false, false, false, false, false, false, true]⟩ = .ok (.correct 0x40#7) ∧
  decodeTableWord 4 0x5 = some (.encode 0x5#4) ∧ decodeTableWord 7 0x5 = some (.correct 0x5#7)

/- ### Batches -/

/-- R77, R78, R79: a batch call of `encode` or `correct` on N rows gives N rows, the per-row function of row n at index
n. -/
def Obligations.BatchCallMapsTheRowFunction : Prop :=
  ∀ s : State, s.pending = [] →
    (∀ batch : List MsgRow, ∃ t, runBatch (batch.map .encM) s = .next t ∧ t.pending = [] ∧
      assemble batch.length (t.done.drop s.done.length) =
        batch.map fun m => some (.codeword (encodeRow m))) ∧
    ∀ batch : List CwRow, ∃ t, runBatch (batch.map .decR) s = .next t ∧ t.pending = [] ∧
      assemble batch.length (t.done.drop s.done.length) =
        batch.map fun r => some (.message (correctRow r))

/-- R79, R108: from every state a batch call completes, with nothing left pending, and ends with all N of its result rows
produced. That transactions already pending are issued first is the model's choice (log entry 11). -/
def Obligations.BatchCallEndsWithAllRowsProduced : Prop :=
  ∀ (rows : List Drive) (s : State), ∃ t, runBatch rows s = .next t ∧ t.pending = [] ∧
    t.done.length = s.done.length + s.pending.length + rows.length ∧
    assemble rows.length (t.done.drop (s.done.length + s.pending.length)) = rows.map fun d =>
      match d with
      | .encM m => some (.codeword (encodeRow m))
      | .decR r => some (.message (correctRow r))

/-- R80, R81: a batch call on a concatenation gives the concatenation of what calls on the parts give, each part called
from any state of its own; a batch of one row gives the per-row function of it; the empty batch gives no row and takes no transaction. -/
def Obligations.BatchCallsConcatenate : Prop :=
  (∀ (a b : List Drive) (s s' s'' : State), s.pending = [] → s'.pending = [] → s''.pending = [] →
    ∃ t t' t'', runBatch (a ++ b) s = .next t ∧ runBatch a s' = .next t' ∧ runBatch b s'' = .next t'' ∧
      assemble (a.length + b.length) (t.done.drop s.done.length) =
        assemble a.length (t'.done.drop s'.done.length) ++ assemble b.length (t''.done.drop s''.done.length)) ∧
  (∀ (d : Drive) (s : State), s.pending = [] → ∃ t, runBatch [d] s = .next t ∧
    assemble 1 (t.done.drop s.done.length) =
      [some (match d with
        | .encM m => .codeword (encodeRow m)
        | .decR r => .message (correctRow r))]) ∧
  ∀ s : State, s.pending = [] → runBatch [] s = .next s ∧ assemble 0 [] = []

/-- R31, R79, R82, R87, R110: the schedule is invisible. Take any rows, ENCODE and CORRECT operands mixed in any way, and
any schedule of them: the N transactions in any order, each on any instance. From every state, for every number of
instances, the host that places each result at its row's index assembles the per-row function of every row. No index occurs
twice here, so the model's choice among several results of one row (log entry 9) decides nothing. -/
def Obligations.ScheduleIsInvisibleInTheOutputBatch : Prop :=
  ∀ (rows : List Drive) (jobs rest : List Job) (s : State),
    (jobs.map fun j => (j.drive, j.slot.row)).Perm rows.zipIdx → s.pending = jobs ++ rest →
    ∃ t, runSteps rows.length s = .next t ∧ t.pending = rest ∧
      assemble rows.length (t.done.drop s.done.length) = rows.map fun d =>
        match d with
        | .encM m => some (.codeword (encodeRow m))
        | .decR r => some (.message (correctRow r))

/-- R71, R77, R78, R84: end to end. The host encodes a batch of messages, a channel complements at most one position of
each codeword, the host corrects the received rows: the output batch is the batch of messages. -/
def Obligations.BatchSurvivesOneFlipPerRow : Prop :=
  ∀ (messages : List MsgRow) (received : List CwRow) (s : State), s.pending = [] →
    ∃ t, runBatch (messages.map .encM) s = .next t ∧ t.pending = [] ∧
      ∀ codewords : List CwRow,
        assemble messages.length (t.done.drop s.done.length) = codewords.map (fun c => some (.codeword c)) →
        List.Forall₂ (fun c r => r = c ∨ ∃ p, p < 7 ∧ r = c ^^^ unitRow p) codewords received →
        ∃ u, runBatch (received.map .decR) t = .next u ∧
          assemble received.length (u.done.drop t.done.length) = messages.map fun m => some (.message m)

/- ### The host -/

/-- R97, R98, R99, R100: the host's validation. A source that cannot be read is source-unavailable, one that becomes
unreadable after a defective line among them (the model's choice, log entry 6). A readable source is accepted
exactly when every line has the operation's width and only '0' and '1'; then row n's position i is character i of line
n. A rejected source yields no batch. -/
def Obligations.OnlyValidSourcesAreAccepted : Prop :=
  ∀ p : Port, acquire p none = .error .sourceUnavailable ∧
    ∀ lines : List (List Char),
      ((∃ rows, acquire p (some lines) = .ok rows) ↔
        ∀ l ∈ lines, l.length = p.width ∧ ∀ c ∈ l, c = '0' ∨ c = '1') ∧
      ∀ rows, acquire p (some lines) = .ok rows →
        batchWf p rows = true ∧ rows.map (List.map bitChar) = lines

/-- R98, R99: a reported failure is real: a length-mismatch names a line whose length is not the operation's width and
gives that length, an invalid-character names a line and a character of it other than '0' and '1'. Which defect is
reported, and the number of the first line, are the host's (log entry 6). -/
def Obligations.ReportedFailureIsReal : Prop :=
  ∀ (p : Port) (lines : List (List Char)) (f : HostFailure), acquire p (some lines) = .error f →
    (∃ n l, lines[n]? = some l ∧ l.length ≠ p.width ∧
      f = .lengthMismatch (Config.firstLineNumber + n) l.length) ∨
    ∃ n l c, lines[n]? = some l ∧ c ∈ l ∧ c ≠ '0' ∧ c ≠ '1' ∧
      f = .invalidCharacter (Config.firstLineNumber + n) c

/-- R48, R50, R77, R78: text in, text out. Lines of width 4 in mode 'e' come out as the row strings of their codewords,
lines of width 7 in mode 'd' as the row strings of their corrected messages. -/
def Obligations.TextIsTransformedLineByLine : Prop :=
  ∀ s : State, s.pending = [] →
    (∀ batch : List MsgRow, ∃ t, hostCall .encM (some (batch.map rowString)) s = .ok (.next t) ∧
      renderBatch (assemble batch.length (t.done.drop s.done.length)) =
        batch.map fun m => rowString (encodeRow m)) ∧
    ∀ batch : List CwRow, ∃ t, hostCall .decR (some (batch.map rowString)) s = .ok (.next t) ∧
      renderBatch (assemble batch.length (t.done.drop s.done.length)) =
        batch.map fun r => rowString (correctRow r)

/-- R49: the prompt skips every character that is neither 'e' nor 'd' and takes the first that is. The last clause, that an
input which ends without one gives no mode, is the model's choice (log entry 10, DESIGN CHOICE). -/
def Obligations.PromptRepeatsUntilValidMode : Prop :=
  ∀ junk rest : List Char, (∀ c ∈ junk, c ≠ 'e' ∧ c ≠ 'd') →
    promptMode (junk ++ 'e' :: rest) = some (.encM, rest) ∧
    promptMode (junk ++ 'd' :: rest) = some (.decR, rest) ∧ promptMode junk = none

/-- R8, R48, R50: a row string is position 0 first: character i is position i, and reading it back gives the row, at every
width. -/
def Obligations.RowStringsReadBack : Prop :=
  ∀ (n : Nat) (v : BitVec n),
    (rowString v).length = n ∧
    (∀ i, i < n → (rowString v)[i]? = some (if pos v i then '1' else '0')) ∧
    ∃ bits, bitsOfString (rowString v) = some bits ∧ rowOfBits n bits = v

/-- R47: a script written one transaction per line, each with its result in a comment and a comment line before it, reads
back as its transactions; running it from any state executes them top to bottom. -/
def Obligations.ScriptReadsBackAndRunsInOrder : Prop :=
  ∀ (is : List Instr) (comment : List Char),
    parseScript (is.flatMap fun i => [';' :: comment, scriptLineWithResult i]) = .ok is ∧
    parseScript (is.map scriptLine) = .ok is ∧
    ∀ s : State, s.pending = [] → ∃ t, runSteps is.length (s.issue (scriptJobs is)) = .next t ∧
      (t.done.drop s.done.length).map (fun d => decodeDrive d.drive) = is

/-- `spec/95_test_vectors.md` section 1: the source's vectors S1, S4 and S5 hold, and its wrong vectors S2 and S3 hold only
as corrected (C1). -/
def Obligations.SourceVectorsHoldAsCorrected : Prop :=
  encodeRow 0x5#4 = 0x2D#7 ∧
  encodeRow 0x4#4 = 0x2A#7 ∧ encodeRow 0x4#4 ≠ 0x34#7 ∧
  encodeRow 0xB#4 = 0x55#7 ∧ encodeRow 0xB#4 ≠ 0x4B#7 ∧
  correctRow 0x2D#7 = 0x5#4 ∧
  ∀ p, p < 7 → correctRow (flipAt 0x2D#7 p) = 0x5#4
end

