-- ==== Sys2Proof/Laws/Rows.lean ====
section
/-! SUPPORT. What a row operation gives at each position; the lemmas that proofs about rows cite. -/

namespace Sys2Proof.Machine

/-- Position i of the row built from `f` is `f i`. -/
theorem pos_rowOf (n : Nat) (f : Nat → Bit) (i : Nat) (h : i < n) : pos (rowOf n f) i = f i := by
  induction n generalizing f i with
  | zero => omega
  | succ n ih =>
    cases i with
    | zero => simp [pos, rowOf]
    | succ i =>
      have := ih (fun j => f (j + 1)) i (by omega)
      simpa [pos, rowOf, BitVec.getLsbD_concat] using this

/-- Two rows of one width that agree at every position are equal. -/
theorem row_ext {n : Nat} {u v : BitVec n} (h : ∀ i, i < n → pos u i = pos v i) : u = v :=
  BitVec.eq_of_getLsbD_eq fun i hi => h i hi

/-- A row is built from its own positions. -/
theorem rowOf_pos {n : Nat} (v : BitVec n) : rowOf n (pos v) = v :=
  row_ext fun i hi => pos_rowOf n _ i hi

/-- Rows built from functions that agree below the width are equal. -/
theorem rowOf_congr {n : Nat} {f g : Nat → Bit} (h : ∀ i, i < n → f i = g i) : rowOf n f = rowOf n g :=
  row_ext fun i hi => by rw [pos_rowOf n f i hi, pos_rowOf n g i hi, h i hi]

@[simp] theorem pos_xor {n : Nat} (u v : BitVec n) (i : Nat) : pos (u ^^^ v) i = (pos u i ^^ pos v i) := by
  simp [pos]

/-- What complementing a position does at each position. -/
theorem pos_flipAt {n : Nat} (v : BitVec n) (p i : Nat) (h : i < n) :
    pos (flipAt v p) i = if i = p then !pos v i else pos v i := pos_rowOf n _ i h

/-- Complementing a position is adding the unit row of that position. -/
theorem flipAt_eq_xor (v : CwRow) (p : Nat) : flipAt v p = v ^^^ unitRow p := by
  apply row_ext
  intro i hi
  rw [pos_flipAt v p i hi, pos_xor, unitRow, pos_rowOf 7 _ i hi]
  by_cases h : i = p
  · simp [h]
  · have : (i == p) = false := by simpa using h
    simp [h, this]

@[simp] theorem length_bitsOf {n : Nat} (v : BitVec n) : (bitsOf v).length = n := by simp [bitsOf]

@[simp] theorem length_rowString {n : Nat} (v : BitVec n) : (rowString v).length = n := by simp [rowString]

/-- Reading a row off its own list of bits gives it back. -/
theorem rowOfBits_bitsOf {n : Nat} (v : BitVec n) : rowOfBits n (bitsOf v) = v := by
  apply row_ext
  intro i hi
  rw [rowOfBits, pos_rowOf n _ i hi]
  simp [bitsOf, List.getD, hi]

/-- The bits of the row read off a list of the right length are that list. -/
theorem bitsOf_rowOfBits {n : Nat} (bits : List Bit) (h : bits.length = n) : bitsOf (rowOfBits n bits) = bits := by
  apply List.ext_getElem (by simp [h])
  intro i h1 h2
  have hi : i < n := by simpa using h1
  have h3 := pos_rowOf n (fun j => bits.getD j false) i hi
  simp only [bitsOf, rowOfBits, List.getElem_map, List.getElem_range, h3]
  simp [List.getD, h2]

@[simp] theorem charBit_bitChar (b : Bit) : charBit (bitChar b) = some b := by cases b <;> decide

/-- Every character of a row string is '0' or '1'. -/
theorem charBit_of_mem_rowString {n : Nat} (v : BitVec n) (c : Char) (h : c ∈ rowString v) : (charBit c).isSome := by
  simp only [rowString, List.mem_map] at h
  obtain ⟨b, -, rfl⟩ := h
  simp

end Sys2Proof.Machine
end

