-- ==== Sys2Proof/Laws/Codec.lean ====
section
/-! SUPPORT. One spec lemma for each function of the code: what it gives at each position. -/

namespace Sys2Proof.Machine

/-- ENCODE at each position (R52). -/
theorem pos_encodeRow (m : MsgRow) (i : Nat) (h : i < 7) : pos (encodeRow m) i = mod2 (encodeSum m i) :=
  pos_rowOf 7 _ i h

/-- The syndrome at each component (R62). -/
theorem pos_syndrome (r : CwRow) (i : Nat) (h : i < 3) : pos (syndrome r) i = mod2 (syndromeSum r i) :=
  pos_rowOf 3 _ i h

/-- Extraction at each position (R68). -/
theorem pos_extractRow (c : CwRow) (j : Nat) (h : j < 4) : pos (extractRow c) j = pos c (dat j) :=
  pos_rowOf 4 _ j h

/-- At index -1 the working copy is the row itself (R65). -/
theorem fixRow_of_index_neg_one {r : CwRow} (h : wrongBitIndex r = -1) : fixRow r = r := if_pos h

/-- At any other index the working copy has that position complemented (R66). -/
theorem fixRow_of_index_pos {r : CwRow} (h : wrongBitIndex r ≠ -1) :
    fixRow r = flipAt r (wrongBitIndex r).toNat := if_neg h

/-- Reduction modulo 2 of a sum is the XOR of the reductions (R54). -/
theorem mod2_add (a b : Nat) : mod2 (a + b) = (mod2 a ^^ mod2 b) := by
  unfold mod2
  rcases Nat.mod_two_eq_zero_or_one a with ha | ha <;> rcases Nat.mod_two_eq_zero_or_one b with hb | hb <;>
    simp [Nat.add_mod, ha, hb]

@[simp] theorem mod2_bitNat (b : Bit) : mod2 (bitNat b) = b := by cases b <;> rfl

end Sys2Proof.Machine
end

