-- ==== Sys2Proof/Laws/Decode.lean ====
section
/-! SUPPORT. What the decoder answers for a row of each port. -/

namespace Sys2Proof

theorem decode_encM (bits : List Bit) (h : bits.length = 4) :
    decode ⟨.encM, bits⟩ = .ok (.encode (Machine.rowOfBits 4 bits)) := by simp [decode, h]

theorem decode_decR (bits : List Bit) (h : bits.length = 7) :
    decode ⟨.decR, bits⟩ = .ok (.correct (Machine.rowOfBits 7 bits)) := by simp [decode, h]

/-- The drive a table word stands for decodes to the instruction the table word stands for. -/
theorem decodeDrive_of_tableDrive {nbits w : Nat} {d : Drive} (h : tableDrive nbits w = some d) :
    decodeTableWord nbits w = some (decodeDrive d) := by
  unfold tableDrive at h
  rcases hi : decodeTableWord nbits w with _ | i
  · simp [hi] at h
  · simp only [hi, Option.map_some, Option.some.injEq] at h
    subst h
    cases i <;> rfl

end Sys2Proof
end

