-- ==== Sys2Proof/Laws/State.lean ====
section
/-! SUPPORT. What each state update leaves in each field. -/

namespace Sys2Proof.Machine

variable (s : State) (j : Job) (rest jobs : List Job) (d : Drive) (o : Out) (m : MsgRow) (r : CwRow)

@[simp] theorem State.select_block : (s.select j rest).block = s.block := rfl
@[simp] theorem State.select_encM : (s.select j rest).encM = s.encM := rfl
@[simp] theorem State.select_decR : (s.select j rest).decR = s.decR := rfl
@[simp] theorem State.select_slot : (s.select j rest).slot = j.slot := rfl
@[simp] theorem State.select_pending : (s.select j rest).pending = rest := rfl
@[simp] theorem State.select_done : (s.select j rest).done = s.done := rfl

@[simp] theorem State.record_block : (s.record d o).block = s.block := rfl
@[simp] theorem State.record_encM : (s.record d o).encM = s.encM := rfl
@[simp] theorem State.record_decR : (s.record d o).decR = s.decR := rfl
@[simp] theorem State.record_slot : (s.record d o).slot = s.slot := rfl
@[simp] theorem State.record_pending : (s.record d o).pending = s.pending := rfl
@[simp] theorem State.record_done : (s.record d o).done = s.done ++ [⟨s.slot, d, o⟩] := rfl

@[simp] theorem State.issue_block : (s.issue jobs).block = s.block := rfl
@[simp] theorem State.issue_encM : (s.issue jobs).encM = s.encM := rfl
@[simp] theorem State.issue_decR : (s.issue jobs).decR = s.decR := rfl
@[simp] theorem State.issue_slot : (s.issue jobs).slot = s.slot := rfl
@[simp] theorem State.issue_pending : (s.issue jobs).pending = s.pending ++ jobs := rfl
@[simp] theorem State.issue_done : (s.issue jobs).done = s.done := rfl

@[simp] theorem State.presentEnc_block : (s.presentEnc m).block = s.block := rfl
@[simp] theorem State.presentEnc_encM : (s.presentEnc m).encM = s.encM.set s.slot.inst m := rfl
@[simp] theorem State.presentEnc_decR : (s.presentEnc m).decR = s.decR := rfl
@[simp] theorem State.presentEnc_slot : (s.presentEnc m).slot = s.slot := rfl
@[simp] theorem State.presentEnc_pending : (s.presentEnc m).pending = s.pending := rfl
@[simp] theorem State.presentEnc_done : (s.presentEnc m).done = s.done := rfl

@[simp] theorem State.presentDec_block : (s.presentDec r).block = s.block := rfl
@[simp] theorem State.presentDec_encM : (s.presentDec r).encM = s.encM := rfl
@[simp] theorem State.presentDec_decR : (s.presentDec r).decR = s.decR.set s.slot.inst r := rfl
@[simp] theorem State.presentDec_slot : (s.presentDec r).slot = s.slot := rfl
@[simp] theorem State.presentDec_pending : (s.presentDec r).pending = s.pending := rfl
@[simp] theorem State.presentDec_done : (s.presentDec r).done = s.done := rfl

end Sys2Proof.Machine
end

