-- ==== Sys2Proof/Laws/Ops.lean ====
section
/-! SUPPORT. The port banks: a row presented at an instance is on that instance's port, every other port is left alone,
and the number of instances never changes. -/

namespace Sys2Proof.Machine

variable {α : Type}

theorem Bank.index_lt (b : Bank α) (k : Nat) : b.index k < b.size := Nat.mod_lt _ (by simp [Bank.size])

@[simp] theorem Bank.size_set (b : Bank α) (k : Nat) (v : α) : (b.set k v).size = b.size := by
  unfold Bank.set
  split <;> simp [Bank.size]

@[simp] theorem Bank.index_set (b : Bank α) (k : Nat) (v : α) (q : Nat) : (b.set k v).index q = b.index q := by
  simp [Bank.index]

/-- The row presented at instance k stands on its port. -/
@[simp] theorem Bank.get_set_same (b : Bank α) (k : Nat) (v : α) : (b.set k v).get k = v := by
  have hlt := b.index_lt k
  unfold Bank.get
  rw [Bank.index_set]
  unfold Bank.set
  rcases h : b.index k with _ | j
  · rfl
  · rw [h, Bank.size] at hlt
    simp [List.getD, show j < b.rest.length by omega]

/-- Two numbers that name one instance read one port. -/
theorem Bank.get_congr (b : Bank α) {k q : Nat} (h : b.index q = b.index k) : b.get q = b.get k := by
  unfold Bank.get
  rw [h]

/-- Every other instance's port is left alone. -/
theorem Bank.get_set_other (b : Bank α) (k q : Nat) (v : α) (h : b.index q ≠ b.index k) :
    (b.set k v).get q = b.get q := by
  unfold Bank.get
  rw [Bank.index_set]
  have hq := b.index_lt q
  unfold Bank.set
  rcases hk : b.index k with _ | j
  · rcases hq' : b.index q with _ | l
    · omega
    · rw [hq', Bank.size] at hq
      simp [List.getD, show l < b.rest.length by omega]
  · rcases hq' : b.index q with _ | l
    · rfl
    · have : j ≠ l := by omega
      simp [List.getD, List.getElem?_set_ne this]

/-- The last row presented at an instance is the one on its port. -/
theorem Bank.set_set (b : Bank α) (k : Nat) (v w : α) : (b.set k v).set k w = b.set k w := by
  unfold Bank.set
  rcases h : b.index k with _ | j
  · have : Bank.index { b with first := v } k = 0 := h
    simp [this]
  · have : Bank.index { b with rest := b.rest.set j v } k = j + 1 := by simpa [Bank.index, Bank.size] using h
    simp [this]

@[simp] theorem encInput_presentEnc (s : State) (m : MsgRow) : (s.presentEnc m).encInput s.slot.inst = m := by
  simp [State.encInput]

@[simp] theorem decInput_presentDec (s : State) (r : CwRow) : (s.presentDec r).decInput s.slot.inst = r := by
  simp [State.decInput]

end Sys2Proof.Machine
end

