-- ==== Sys2Proof/Laws/PerInstr.lean ====
section
/-! SUPPORT. Facts about every instruction as syntax, one lemma per constructor. -/

namespace Sys2Proof.Laws

/-- An instruction is well formed, and its encoding stands at its own port and satisfies the port's width contract
(R26, R43). -/
def EncodedWidth.Statement (i : Instr) : Prop :=
  i.wf = true ∧ (encode i).port = i.port ∧ (encode i).wf = true

theorem EncodedWidth.encode (m : MsgRow) : EncodedWidth.Statement (.encode m) :=
  ⟨decide_eq_true m.isLt, rfl,
    by simp [RawTxn.wf, Sys2Proof.encode, Port.width]⟩

theorem EncodedWidth.correct (r : CwRow) : EncodedWidth.Statement (.correct r) :=
  ⟨decide_eq_true r.isLt, rfl,
    by simp [RawTxn.wf, Sys2Proof.encode, Port.width]⟩

end Sys2Proof.Laws
end

