-- ==== Sys2Proof/Laws/Step.lean ====
section
/-! SUPPORT. What a transaction and a step do, said once. -/

namespace Sys2Proof.Machine

@[simp] theorem decodeDrive_encodeDrive (i : Instr) : decodeDrive (encodeDrive i) = i := by cases i <;> rfl

@[simp] theorem encodeDrive_decodeDrive (d : Drive) : encodeDrive (decodeDrive d) = d := by cases d <;> rfl

/-- The state after an ENCODE transaction. -/
theorem exec_encode_eq (m : MsgRow) (s : State) :
    exec (.encode m) s = .next ((s.presentEnc m).record (.encM m) (.codeword (encodeRow m))) := by
  simp [exec, execEncode, State.encC]

/-- The state after a CORRECT transaction. -/
theorem exec_correct_eq (r : CwRow) (s : State) :
    exec (.correct r) s = .next ((s.presentDec r).record (.decR r) (.message (correctRow r))) := by
  simp [exec, execCorrect, State.decM]

/-- Every transaction adds one record, with the function of its own row, and leaves slot, pending transactions and the
numbers of instances alone. -/
theorem exec_spec (i : Instr) (s : State) : ∃ t, exec i s = .next t ∧
    t.done = s.done ++ [⟨s.slot, encodeDrive i, resultOf (encodeDrive i)⟩] ∧ t.slot = s.slot ∧
    t.pending = s.pending ∧ t.block = s.block ∧ t.encM.size = s.encM.size ∧ t.decR.size = s.decR.size := by
  cases i with
  | encode m => exact ⟨_, exec_encode_eq m s, by simp [encodeDrive, resultOf]⟩
  | correct r => exact ⟨_, exec_correct_eq r s, by simp [encodeDrive, resultOf]⟩

/-- With nothing pending a step changes nothing. -/
theorem step_nil {s : State} (h : s.pending = []) : step s = .next s := by simp [step, h]

/-- With a job pending a step is its transaction. -/
theorem step_cons {s : State} {j : Job} {rest : List Job} (h : s.pending = j :: rest) :
    step s = exec (decodeDrive j.drive) (s.select j rest) := by simp [step, h]

/-- Everything a step can do to the record and to the pending transactions. -/
theorem step_cases {s t : State} (h : step s = .next t) :
    (s.pending = [] ∧ t = s) ∨
    (∃ j rest, s.pending = j :: rest ∧ t.pending = rest ∧ t.slot = j.slot ∧
      t.done = s.done ++ [⟨j.slot, j.drive, resultOf j.drive⟩]) := by
  rcases hp : s.pending with _ | ⟨j, rest⟩
  · rw [step_nil hp] at h
    injection h with h
    exact .inl ⟨rfl, h.symm⟩
  · obtain ⟨u, hu, hdone, hslot, hpend, -⟩ := exec_spec (decodeDrive j.drive) (s.select j rest)
    rw [step_cons hp, hu] at h
    injection h with h
    subst h
    exact .inr ⟨j, rest, rfl, by simpa using hpend, by simpa using hslot, by simpa using hdone⟩

@[simp] theorem length_batchJobs (rows : List Drive) : (batchJobs rows).length = rows.length := by simp [batchJobs]

/-- The batch call of a host with nothing else pending is N steps (R108). -/
theorem runBatch_of_nothing_pending (rows : List Drive) {s : State} (h : s.pending = []) :
    runBatch rows s = runSteps rows.length (s.issue (batchJobs rows)) := by simp [runBatch, h]

theorem runSteps_zero (s : State) : runSteps 0 s = .next s := rfl

theorem runSteps_succ {s t : State} (n : Nat) (h : step s = .next t) : runSteps (n + 1) s = runSteps n t := by
  have h' : Sys2Proof.core.step s = .next t := h
  unfold runSteps
  simp only [Host.Core.run, h']
  rfl

end Sys2Proof.Machine
end

