-- ==== Sys2Proof/Tests/Slice0.lean ====
section
/-! SUPPORT. Tests: expected values are the spec's (its rule or section is named at each test); and a witness for the
hypotheses of every statement that has some. -/

open Sys2Proof Sys2Proof.Machine

namespace Sys2Proof.Tests

/-- A small state: two ENC and two DEC instances, all ports 0, the given transactions pending. -/
def small (jobs : List Job) : State := ⟨⟨⟩, ⟨0, [0]⟩, ⟨0, [0]⟩, ⟨0, 0⟩, jobs, []⟩

/-- The state of an outcome, if it is a next state. -/
def stateOf (o : Host.Outcome State Fault Refusal) : Option State :=
  match o with
  | .next t => some t
  | .fault _ => none
  | .refused _ => none

/-- What the last recorded transaction of a next state returned. -/
def lastOut (o : Host.Outcome State Fault Refusal) : Option Out :=
  (stateOf o).bind fun t => t.done.getLast?.map (·.out)

/- ### The width check refuses (R26, R45) -/

theorem test_wf_refuses_short_message : RawTxn.wf ⟨.encM, [true, false, true]⟩ = false := by decide
theorem test_wf_refuses_long_received : RawTxn.wf ⟨.decR, [true, false, true, true, false, true, false, true]⟩ = false := by
  decide
theorem test_wf_refuses_codeword_at_encoder :
    RawTxn.wf ⟨.encM, [true, false, true, true, false, true, false]⟩ = false := by decide
theorem test_batch_wf_refuses_one_bad_row :
    batchWf .encM [[true, false, true, false], [true, false, true]] = false := by decide
theorem test_batch_wf_empty_row_and_empty_batch :
    batchWf .encM [[true, false, true, false], []] = false ∧ batchWf .decR [] = true := by decide

/- ### Decoding rows written out position by position (R9, R37, R43) -/

theorem test_decode_encode_1010 : decode ⟨.encM, [true, false, true, false]⟩ = .ok (.encode 0x5#4) := rfl
theorem test_decode_encode_0001 : decode ⟨.encM, [false, false, false, true]⟩ = .ok (.encode 0x8#4) := rfl
theorem test_decode_correct_1011010 :
    decode ⟨.decR, [true, false, true, true, false, true, false]⟩ = .ok (.correct 0x2D#7) := rfl
theorem test_decode_correct_0000001 :
    decode ⟨.decR, [false, false, false, false, false, false, true]⟩ = .ok (.correct 0x40#7) := rfl
theorem test_decode_rejects_width : decode ⟨.decR, [true]⟩ = .error (.wrongWidth .decR 1) := rfl
theorem test_encode_of_correct :
    encode (.correct 0x4B#7) = ⟨.decR, [true, true, false, true, false, false, true]⟩ := by decide
theorem test_table_word_named_by_width :
    decodeTableWord 4 0xF = some (.encode 0xF#4) ∧ decodeTableWord 7 0xF = some (.correct 0xF#7) := by decide
theorem test_table_word_in_bytes :
    decodeTableWord 8 0xF = some (.encode 0xF#4) ∧ decodeTableWord 8 0x10 = some (.correct 0x10#7) ∧
    decodeTableWord 8 0x80 = none := by decide

/- ### One step per operation (R58, R73; `spec/95_test_vectors.md` sections 1, 2.5, 2.6) -/

/-- R58: `1101 -> 1010101`, the corrected S3; the wrong vector is 4B. -/
theorem test_step_encode_1101 :
    lastOut (step (small [⟨⟨0, 1⟩, .encM 0xB#4⟩])) = some (.codeword 0x55#7) := by decide
/-- R58: `1111 -> 1111111`, the case where the integer sums reach 3. -/
theorem test_step_encode_1111 :
    lastOut (step (small [⟨⟨0, 0⟩, .encM 0xF#4⟩])) = some (.codeword 0x7F#7) := by decide
/-- Section 2.6: `1001010` has k = 3; forgetting the `- 1` gives `0010`, reversed weights give `0000`. -/
theorem test_step_correct_1001010 :
    lastOut (step (small [⟨⟨0, 1⟩, .decR 0x29#7⟩])) = some (.message 0x5#4) := by decide
/-- R76 (f): two flips of the zero codeword give `1000`, and nothing is signalled. -/
theorem test_step_correct_two_flips :
    lastOut (step (small [⟨⟨0, 0⟩, .decR 0x03#7⟩])) = some (.message 0x1#4) := by decide
/-- Section 2.6, last line: a zero syndrome complements nothing, position 0 included. -/
theorem test_fix_of_clean_codeword : fixRow 0x2D#7 = 0x2D#7 ∧ wrongBitIndex 0x2D#7 = -1 := by decide
/-- Instance numbers past the number built name an instance again (log entry 4). -/
theorem test_instance_number_wraps :
    (stateOf (step (small [⟨⟨0, 3⟩, .encM 0x5#4⟩]))).map (fun t => (t.encInput 0, t.encInput 1)) =
      some (0x0#4, 0x5#4) := by decide
theorem test_idle_step_at_reset : stateOf (step State.reset) = some State.reset := by decide
theorem test_fetch_word_runs_next :
    lastOut (step (State.reset.withFetchWord 7 0x25)) = some (.message 0x5#4) := by decide

/- ### Text (R47 to R50; programs P1 and P5) -/

theorem test_row_string : rowString 0x5#4 = ['1', '0', '1', '0'] := by decide
theorem test_script_line_P1 :
    scriptLineWithResult (.encode 0x4#4) = "ENCODE 0010 ; -> 0101010".toList := by decide
theorem test_parse_line_P2 :
    parseLine "CORRECT 1011010  ; dec_r = 7'h2D -> dec_m = 4'h5  -> 1010".toList = .ok (some (.correct 0x2D#7)) := by
  rfl
theorem test_parse_comment_line : parseLine "; no transaction".toList = .ok none := by rfl
theorem test_parse_rejects :
    parseLine "DECODE 1011010".toList = .error .unknownMnemonic ∧ parseLine "ENCODE 10x0".toList = .error .badRow ∧
    parseLine "ENCODE 101".toList = .error (.badWidth (.wrongWidth .encM 3)) := ⟨rfl, rfl, rfl⟩
/-- P5: line 2 is too short and line 3 is bad, so no row of the source is transformed. -/
theorem test_source_with_defects_is_rejected :
    (match acquire .decR (some ["1011010".toList, "101101".toList, "10110x0".toList]) with
      | .ok _ => false
      | .error _ => true) = true := by decide

/- ### Witnesses: the hypotheses of each statement hold together somewhere -/

/-- A state with a record, two instances of each unit, and the host at instance 1. -/
def recorded : State :=
  ⟨⟨⟩, ⟨0x5#4, [0x3#4]⟩, ⟨0x2D#7, [0x7F#7]⟩, ⟨2, 1⟩, [], [⟨⟨0, 0⟩, .encM 0x5#4, .codeword 0x2D#7⟩]⟩

theorem witness_index_bounds :
    (0 < 3 ∧ 2 < 3) ∧ (0 < 4 ∧ 3 < 4) ∧ (0 < 7 ∧ 6 < 7) ∧ (0 ∈ parColumns ∧ ¬ 0 ∈ datColumns) := by decide

theorem witness_CodeIsLinearWithDistanceThree :
    (0#4 : MsgRow) ≠ 1#4 ∧ encodeRow 5#4 = encodeRow 5#4 ∧ syndrome 0x2D#7 = 0#3 := by decide

theorem witness_EncodeTransactionFrame :
    (∃ t, exec (.encode 0x9#4) recorded = .next t) ∧
    recorded.encM.index 0 ≠ recorded.encM.index recorded.slot.inst ∧ 0 < recorded.done.length :=
  ⟨⟨_, rfl⟩, by decide⟩

theorem witness_CorrectTransactionFrame :
    (∃ t, exec (.correct 0x29#7) recorded = .next t) ∧
    recorded.decR.index 0 ≠ recorded.decR.index recorded.slot.inst ∧ 0 < recorded.done.length :=
  ⟨⟨_, rfl⟩, by decide⟩

/-- Both sides of the index test, at the ends of its range. -/
theorem witness_CorrectionComplementsIndexedPosition :
    wrongBitIndex 0x2D#7 = -1 ∧ wrongBitIndex 0x2C#7 = 0 ∧ wrongBitIndex 0x6D#7 = 6 := by decide

theorem witness_SyndromeToPositionTable : syndromeK 0x00#7 = 0 ∧ syndromeK 0x01#7 ≠ 0 ∧ syndromeK 0x40#7 = 7 := by decide

theorem witness_ExtractionReadsDataPositions : 0 ∈ parColumns ∧ 3 ∈ parColumns := by decide

theorem witness_CorrectFunctionTable :
    distance (encodeRow 0x5#4) 0x2D#7 ≤ 1 ∧ distance (encodeRow 0x5#4) 0x6D#7 ≤ 1 := by decide

/-- Two positions, three positions, and three positions that are the support of the weight-3 codeword `1110000`. -/
theorem witness_TwoOrThreeFlipsNeverRecover :
    (0 : Fin 7) ≠ 6 ∧ ((0 : Fin 7) ≠ 1 ∧ (0 : Fin 7) ≠ 2 ∧ (1 : Fin 7) ≠ 2) ∧
    encodeRow 0x1#4 = unitRow 0 ^^^ unitRow 1 ^^^ unitRow 2 := by decide

/-- The clean clause, and the flip clause at positions 0 and 6. -/
theorem witness_OneFlipIsCorrectedOnTheMachine :
    (small [⟨⟨0, 0⟩, .encM 0x5#4⟩, ⟨⟨0, 1⟩, .decR (encodeRow 0x5#4)⟩]).pending =
      ⟨⟨0, 0⟩, .encM 0x5#4⟩ :: ⟨⟨0, 1⟩, .decR (encodeRow 0x5#4)⟩ :: [] ∧
    (0 < 7 ∧ (small [⟨⟨0, 0⟩, .encM 0x5#4⟩, ⟨⟨0, 1⟩, .decR 0x2C#7⟩]).pending =
      ⟨⟨0, 0⟩, .encM 0x5#4⟩ :: ⟨⟨0, 1⟩, .decR (encodeRow 0x5#4 ^^^ unitRow 0)⟩ :: []) ∧
    (6 < 7 ∧ (small [⟨⟨0, 0⟩, .encM 0x5#4⟩, ⟨⟨0, 1⟩, .decR 0x6D#7⟩]).pending =
      ⟨⟨0, 0⟩, .encM 0x5#4⟩ :: ⟨⟨0, 1⟩, .decR (encodeRow 0x5#4 ^^^ unitRow 6)⟩ :: []) := by decide

theorem witness_RepeatedTransactionChangesNothing :
    (∃ t, exec (.encode 0x9#4) recorded = .next t) ∧ ∃ t, exec (.correct 0x29#7) recorded = .next t :=
  ⟨⟨_, rfl⟩, ⟨_, rfl⟩⟩

/-- No step, one step, and more steps than there are transactions. -/
theorem witness_RunsCompleteTheirTransactions :
    (∃ t, runSteps 0 recorded = .next t) ∧ (∃ t, runSteps 1 (small [⟨⟨0, 0⟩, .encM 0x5#4⟩]) = .next t) ∧
    ∃ t, runSteps 2 (small [⟨⟨0, 0⟩, .encM 0x5#4⟩]) = .next t := ⟨⟨_, rfl⟩, ⟨_, rfl⟩, ⟨_, rfl⟩⟩

theorem witness_StepRunsTheDecodedTransaction :
    (small [⟨⟨0, 0⟩, .encM 0x5#4⟩]).pending = ⟨⟨0, 0⟩, .encM 0x5#4⟩ :: [] ∧ State.reset.pending = [] ∧
    decodeTableWord 4 0x5 = some (.encode 0x5#4) ∧ decodeTableWord 7 0x2D = some (.correct 0x2D#7) := by decide

/-- A step that changes an ENC port and a step that changes a DEC port. -/
theorem witness_StepDrivesOneInputPort :
    (∃ t, step (small [⟨⟨0, 1⟩, .encM 0x5#4⟩]) = .next t ∧
      t.encInput 1 ≠ (small [⟨⟨0, 1⟩, .encM 0x5#4⟩]).encInput 1) ∧
    ∃ t, step (small [⟨⟨0, 1⟩, .decR 0x29#7⟩]) = .next t ∧
      t.decInput 1 ≠ (small [⟨⟨0, 1⟩, .decR 0x29#7⟩]).decInput 1 :=
  ⟨⟨_, rfl, by decide⟩, ⟨_, rfl, by decide⟩⟩

/-- A lawful record, and a step from it that adds to it. -/
theorem witness_StepKeepsRecordLawful :
    State.Inv { recorded with pending := [⟨⟨0, 1⟩, .decR 0x03#7⟩] } ∧
    ∃ t, step { recorded with pending := [⟨⟨0, 1⟩, .decR 0x03#7⟩] } = .next t ∧ t.done.length = 2 :=
  ⟨by unfold State.Inv; decide, _, rfl, by decide⟩

/-- The invariant is not true of every state: a record that a correct block cannot give is unlawful. -/
theorem witness_invariant_can_fail : Done.lawful ⟨⟨0, 0⟩, .encM 0x4#4, .codeword 0x34#7⟩ = false := by decide

theorem witness_DecodeAndEncodeAreInverse :
    decode ⟨.encM, [true, false, true, false]⟩ = .ok (.encode 0x5#4) ∧
    decode ⟨.decR, [true, false, true, true, false, true, false]⟩ = .ok (.correct 0x2D#7) := ⟨rfl, rfl⟩

theorem witness_ExactlyTheFullWidthRowsDecode :
    RawTxn.wf ⟨.encM, [true, true, true, true]⟩ = true ∧ RawTxn.wf ⟨.encM, [true, true, true, true, true]⟩ = false ∧
    RawTxn.wf ⟨.decR, [true, true, true, true, true, true, true]⟩ = true ∧
    RawTxn.wf ⟨.decR, [true, true, true, true, true, true]⟩ = false := by decide

/-- Nothing pending: at power-on, and in a state with a record. Used by every statement about a batch call. -/
theorem witness_nothing_pending : State.reset.pending = [] ∧ recorded.pending = [] := by decide

/-- A batch call behind a transaction already pending: its own rows are produced (log entry 11). -/
theorem test_batch_call_behind_pending :
    (stateOf (runBatch [.encM 0x5#4, .decR 0x29#7] (small [⟨⟨0, 0⟩, .decR 0x03#7⟩]))).map
      (fun t => (t.pending, t.done.map (·.out))) =
    some ([], [.message 0x1#4, .codeword 0x2D#7, .message 0x5#4]) := by decide

/-- Three rows of both operations, issued in the order 2, 0, 1, each on another instance, one transaction left over. -/
theorem witness_ScheduleIsInvisibleInTheOutputBatch :
    (([⟨⟨2, 7⟩, .encM 0xB#4⟩, ⟨⟨0, 0⟩, .encM 0x5#4⟩, ⟨⟨1, 1⟩, .decR 0x29#7⟩] : List Job).map
      fun j => (j.drive, j.slot.row)).Perm ([.encM 0x5#4, .decR 0x29#7, .encM 0xB#4] : List Drive).zipIdx ∧
    (small [⟨⟨2, 7⟩, .encM 0xB#4⟩, ⟨⟨0, 0⟩, .encM 0x5#4⟩, ⟨⟨1, 1⟩, .decR 0x29#7⟩, ⟨⟨3, 0⟩, .decR 0x00#7⟩]).pending =
      [⟨⟨2, 7⟩, .encM 0xB#4⟩, ⟨⟨0, 0⟩, .encM 0x5#4⟩, ⟨⟨1, 1⟩, .decR 0x29#7⟩] ++ [⟨⟨3, 0⟩, .decR 0x00#7⟩] := by
  decide

/-- Messages `1010` and `0110`, their codewords, and received rows with no flip and with position 6 complemented. -/
theorem witness_BatchSurvivesOneFlipPerRow :
    State.reset.pending = [] ∧
    (∃ t, runBatch (([0x5#4, 0x6#4] : List MsgRow).map .encM) State.reset = .next t ∧
      assemble 2 (t.done.drop State.reset.done.length) =
        ([0x2D#7, 0x33#7] : List CwRow).map fun c => some (.codeword c)) ∧
    List.Forall₂ (fun c r : CwRow => r = c ∨ ∃ p, p < 7 ∧ r = c ^^^ unitRow p) [0x2D#7, 0x33#7] [0x2D#7, 0x73#7] := by
  refine ⟨rfl, ⟨_, rfl, by decide⟩, .cons (.inl rfl) (.cons (.inr ⟨6, by decide, ?_⟩) .nil)⟩
  decide

/-- An accepted source of each width (P1, P2), and the empty one (P6). -/
theorem witness_OnlyValidSourcesAreAccepted :
    (∃ rows, acquire .encM (some [['1', '0', '1', '0']]) = .ok rows) ∧
    (∃ rows, acquire .decR (some [['1', '0', '1', '1', '0', '1', '0']]) = .ok rows) ∧
    ∃ rows, acquire .encM (some []) = .ok rows := ⟨⟨_, rfl⟩, ⟨_, rfl⟩, ⟨_, rfl⟩⟩

/-- A rejected source of each kind (P5). -/
theorem witness_ReportedFailureIsReal :
    (∃ f, acquire .decR (some [['1', '0', '1', '1', '0', '1']]) = .error f) ∧
    ∃ f, acquire .encM (some [['1', '0', 'x', '0']]) = .error f := ⟨⟨_, rfl⟩, ⟨_, rfl⟩⟩

theorem witness_PromptRepeatsUntilValidMode :
    (∀ c ∈ ['x', 'E', ' '], c ≠ 'e' ∧ c ≠ 'd') ∧ promptMode ['x', 'e', 'd'] = some (.encM, ['d']) :=
  ⟨by simp, rfl⟩

end Sys2Proof.Tests
end

section
/-! SUPPORT. Row strings (R8, R48, R50): the character at each position, and what the reader makes of a row string. -/

namespace Sys2Proof.Machine

/-- Character i of a row string is the character of position i (R8). -/
theorem getElem?_rowString {n : Nat} (v : BitVec n) (i : Nat) (h : i < n) :
    (rowString v)[i]? = some (bitChar (pos v i)) := by
  simp [rowString, bitsOf, h]

/-- Reading the characters of a list of bits gives the bits back. -/
theorem bitsOfString_map_bitChar (bits : List Bit) : bitsOfString (bits.map bitChar) = some bits := by
  unfold bitsOfString
  induction bits with
  | nil => rfl
  | cons b bs ih => simp [ih]

/-- Reading a row string gives the row's bits in position order (R48). -/
@[simp] theorem bitsOfString_rowString {n : Nat} (v : BitVec n) : bitsOfString (rowString v) = some (bitsOf v) :=
  bitsOfString_map_bitChar (bitsOf v)

end Sys2Proof.Machine
end

section
/-! PROOFS of the family of `spec/00_scope.md`: row strings and rows written out position by position. -/

namespace Sys2Proof
open Machine

/-- Settles O38: each character is the character of its position, and the reader inverts it bit by bit, so the bits read
are the row's own, which give the row back. -/
theorem rowStringsReadBack : Obligations.RowStringsReadBack := by
  intro n v
  exact ⟨length_rowString v, getElem?_rowString v, bitsOf v, bitsOfString_rowString v, rowOfBits_bitsOf v⟩

/-- Settles O29: each row has its port's width, so it decodes to the operation of the port (R42) on the row of the listed
bits, which evaluates to the port value, position 0 least significant (R9). The table words are evaluated (log entry 5). -/
theorem writtenOutRowsDecode : Obligations.WrittenOutRowsDecode :=
  ⟨decode_encM [true, false, true, false] rfl,
   decode_encM [true, false, false, false] rfl,
   decode_decR [true, false, true, true, false, true, false] rfl,
   decode_decR [false, false, false, false, false, false, true] rfl,
   by decide, by decide⟩

end Sys2Proof
end

section
/-! SUPPORT. The equations of the two units position by position: the XORs of ENCODE (R53) and of the syndrome (R63),
the working copy's complemented position (R66), and the port equations of CORRECT (R69). -/

namespace Sys2Proof.Machine

/-- R53: the entries of each row of G select the message bits that the reduction modulo 2 turns into XORs. -/
theorem bitsOf_encodeRow (m : MsgRow) :
    bitsOf (encodeRow m) =
      [pos m 0 ^^ pos m 1 ^^ pos m 3, pos m 0 ^^ pos m 2 ^^ pos m 3, pos m 0, pos m 1 ^^ pos m 2 ^^ pos m 3,
        pos m 1, pos m 2, pos m 3] := by
  simp [bitsOf, List.range_succ, pos_encodeRow, encodeSum, gEntry, gRows, mod2_add]

/-- R63: row 0 of H selects the received bits of s0. -/
theorem pos_syndrome_zero (r : CwRow) : pos (syndrome r) 0 = (pos r 0 ^^ pos r 2 ^^ pos r 4 ^^ pos r 6) := by
  simp [pos_syndrome, syndromeSum, hEntry, hRows, mod2_add]

/-- R63: row 1 of H selects the received bits of s1. -/
theorem pos_syndrome_one (r : CwRow) : pos (syndrome r) 1 = (pos r 1 ^^ pos r 2 ^^ pos r 5 ^^ pos r 6) := by
  simp [pos_syndrome, syndromeSum, hEntry, hRows, mod2_add]

/-- R63: row 2 of H selects the received bits of s2. -/
theorem pos_syndrome_two (r : CwRow) : pos (syndrome r) 2 = (pos r 3 ^^ pos r 4 ^^ pos r 5 ^^ pos r 6) := by
  simp [pos_syndrome, syndromeSum, hEntry, hRows, mod2_add]

/-- Index -1 is exactly k = 0 (R64, R65). -/
theorem wrongBitIndex_eq_neg_one_iff (r : CwRow) : wrongBitIndex r = -1 ↔ syndromeK r = 0 := by
  unfold wrongBitIndex
  omega

/-- The working copy differs from the received row at exactly the position that k is one more than (R65, R66). -/
theorem pos_fixRow (r : CwRow) {p : Nat} (hp : p < 7) :
    pos (fixRow r) p = (pos r p ^^ decide (syndromeK r = p + 1)) := by
  by_cases h : wrongBitIndex r = -1
  · have hk : syndromeK r = 0 := (wrongBitIndex_eq_neg_one_iff r).1 h
    simp [fixRow_of_index_neg_one h, hk]
  · have hk : p = (wrongBitIndex r).toNat ↔ syndromeK r = p + 1 := by
      unfold wrongBitIndex at h ⊢
      omega
    rw [fixRow_of_index_pos h, pos_flipAt r _ p hp]
    by_cases hq : syndromeK r = p + 1 <;> simp [hk, hq]

/-- A number below 8 is the weighted sum of exactly one triple of bits, its own binary digits. -/
theorem decide_weightedSum_eq (a b c : Bit) (k : Nat) (hk : k < 8) :
    decide (bitNat a + 2 * bitNat b + 4 * bitNat c = k) =
      (a == k.testBit 0 && b == k.testBit 1 && c == k.testBit 2) := by
  revert a b c k
  decide

/-- The syndrome selects k exactly when its components are the binary digits of k (R64). -/
theorem decide_syndromeK_eq (r : CwRow) (k : Nat) (hk : k < 8) :
    decide (syndromeK r = k) =
      (pos (syndrome r) 0 == k.testBit 0 && pos (syndrome r) 1 == k.testBit 1 &&
        pos (syndrome r) 2 == k.testBit 2) :=
  decide_weightedSum_eq _ _ _ k hk

/-- The message returned is the working copy at positions 2, 4, 5, 6 (R68). -/
theorem bitsOf_correctRow (r : CwRow) :
    bitsOf (correctRow r) = [pos (fixRow r) 2, pos (fixRow r) 4, pos (fixRow r) 5, pos (fixRow r) 6] := by
  simp [bitsOf, List.range_succ, correctRow, pos_extractRow, dat, datColumns]

/-- R69: a data bit is complemented exactly when the syndrome is the column of H at its position. -/
theorem bitsOf_correctRow_eq_xors (r : CwRow) :
    bitsOf (correctRow r) =
      (let s0 := pos (syndrome r) 0
       let s1 := pos (syndrome r) 1
       let s2 := pos (syndrome r) 2
       [pos r 2 ^^ (s0 && s1 && !s2), pos r 4 ^^ (s0 && !s1 && s2), pos r 5 ^^ (!s0 && s1 && s2),
        pos r 6 ^^ (s0 && s1 && s2)]) := by
  simp [bitsOf_correctRow, pos_fixRow, decide_syndromeK_eq, Nat.testBit]

end Sys2Proof.Machine
end

section
/-! PROOFS of the family of `spec/10_state.md`: the constants, the record at power-on, and what the results and the
output ports depend on. -/

namespace Sys2Proof
open Machine

/-- Settles O18: from every state a transaction appends one record that carries `resultOf` of its own row, a function of
that row alone. -/
theorem resultDependsOnPresentedRowOnly : Obligations.ResultDependsOnPresentedRowOnly := by
  intro i s s'
  obtain ⟨t, ht, hdone, -⟩ := exec_spec i s
  obtain ⟨t', ht', hdone', -⟩ := exec_spec i s'
  exact ⟨t, t', resultOf (encodeDrive i), ht, ht', hdone, hdone'⟩

/-- Settles O19: an output port is the unit's function of the row on its input port (R106), so the equations of the two
functions hold at the ports of every state; the syndrome components in R69's equations are R63's XORs. -/
theorem outputPortsFollowInputPorts : Obligations.OutputPortsFollowInputPorts := by
  intro s k
  have hdec := bitsOf_correctRow_eq_xors (s.decInput k)
  rw [pos_syndrome_zero, pos_syndrome_one, pos_syndrome_two] at hdec
  exact ⟨bitsOf_encodeRow (s.encInput k), hdec⟩

/-- Settles O1: the table and the parity of its twelve entries are evaluated; that an entry is the sum over the seven
codeword positions is the definition's sum read off position by position. -/
theorem parityCheckTimesGeneratorIsEven : Obligations.ParityCheckTimesGeneratorIsEven := by
  refine ⟨by decide, fun i j => ?_, by decide⟩
  simp [hgEntry, List.range_succ, Nat.add_assoc]

/-- Settles O2: the entries are the data of the wiring, and the statements about the columns of H and about PAR and DAT
range over the seven codeword positions. -/
theorem wiringIsAsPrinted : Obligations.WiringIsAsPrinted :=
  ⟨rfl, rfl, by decide, rfl, rfl, by decide⟩

/-- Settles O25: nothing is on record at power-on. -/
theorem powerOnRecordIsLawful : Obligations.PowerOnRecordIsLawful :=
  fun _ hd => absurd hd List.not_mem_nil

end Sys2Proof
end

section
/-! SUPPORT. What every answer of a transaction says, what presenting a row again does to the ports (R29), the record a
run of pending transactions leaves (R82), and the row the host reads off a record (R79). -/

namespace Sys2Proof.Machine

/-- A transaction that answers `t` adds one record, with the function of its own row, and leaves slot, pending
transactions and block alone. -/
theorem exec_next {i : Instr} {s t : State} (h : exec i s = .next t) :
    t.done = s.done ++ [⟨s.slot, encodeDrive i, resultOf (encodeDrive i)⟩] ∧ t.slot = s.slot ∧
      t.pending = s.pending ∧ t.block = s.block := by
  obtain ⟨t', ht', hdone, hslot, hpending, hblock, -⟩ := exec_spec i s
  rw [h] at ht'
  injection ht' with ht
  subst ht
  exact ⟨hdone, hslot, hpending, hblock⟩

/-- Presenting the same row at the same unit again changes no port (R29). -/
theorem exec_again_keeps_ports {i : Instr} {s t u : State} (h : exec i s = .next t) (h' : exec i t = .next u) :
    u.encM = t.encM ∧ u.decR = t.decR := by
  cases i with
  | encode m =>
    rw [exec_encode_eq, Host.Outcome.next.injEq] at h h'
    simp [← h', ← h, Bank.set_set]
  | correct r =>
    rw [exec_correct_eq, Host.Outcome.next.injEq] at h h'
    simp [← h', ← h, Bank.set_set]

/-- The record a job leaves: its own slot and row, and the unit's function of the row (R82). -/
def Job.completed (j : Job) : Done := ⟨j.slot, j.drive, resultOf j.drive⟩

@[simp] theorem Job.completed_slot (j : Job) : j.completed.slot = j.slot := rfl
@[simp] theorem Job.completed_drive (j : Job) : j.completed.drive = j.drive := rfl
@[simp] theorem Job.completed_out (j : Job) : j.completed.out = resultOf j.drive := rfl

/-- A step with a job pending completes that job. -/
theorem step_completes_job {s : State} {j : Job} {rest : List Job} (h : s.pending = j :: rest) :
    ∃ t, step s = .next t ∧ t.pending = rest ∧ t.done = s.done ++ [j.completed] := by
  obtain ⟨t, ht, hdone, -, hpending, -⟩ := exec_spec (decodeDrive j.drive) (s.select j rest)
  exact ⟨t, by rw [step_cons h, ht], by simpa using hpending, by simpa [Job.completed] using hdone⟩

/-- As many steps as there are jobs at the front of the pending transactions complete exactly those, in order (R108). -/
theorem runSteps_completes_jobs {jobs rest : List Job} {s : State} (h : s.pending = jobs ++ rest) :
    ∃ t, runSteps jobs.length s = .next t ∧ t.pending = rest ∧ t.done = s.done ++ jobs.map Job.completed := by
  induction jobs generalizing s with
  | nil => exact ⟨s, runSteps_zero s, h, by simp⟩
  | cons j jobs ih =>
    obtain ⟨u, hstep, hpending, hdone⟩ := step_completes_job h
    obtain ⟨t, hrun, htpending, htdone⟩ := ih hpending
    refine ⟨t, ?_, htpending, by simp [htdone, hdone]⟩
    rw [List.length_cons, runSteps_succ jobs.length hstep, hrun]

/-- When some record carries the index n and all that do agree, their row is the result of row n. -/
theorem outputRow_eq_some {records : List Done} {n : Nat} {o : Out} (hsome : ∃ d ∈ records, d.slot.row = n)
    (hall : ∀ d ∈ records, d.slot.row = n → d.out = o) : outputRow records n = some o := by
  have hfound : (records.find? fun d => d.slot.row == n).isSome := by simpa using hsome
  obtain ⟨d, hd⟩ := Option.isSome_iff_exists.1 hfound
  have hrow : d.slot.row = n := by simpa using List.find?_some hd
  simp [outputRow, hd, hall d (List.mem_of_find?_eq_some hd) hrow]

/-- An output batch is the list whose row n is the result of row n (R79). -/
theorem assemble_eq_map {rows : List Drive} {records : List Done} {f : Drive → Option Out}
    (h : ∀ n d, rows[n]? = some d → outputRow records n = f d) : assemble rows.length records = rows.map f := by
  apply List.ext_getElem (by simp [assemble])
  intro n _ hn
  simpa [assemble] using h n _ (List.getElem?_eq_getElem (by simpa using hn))

/-- The records of any schedule of a batch's rows assemble to the function of every row: row n's job is among the jobs,
and every job of index n presents row n (R31). -/
theorem assemble_completed_of_perm {rows : List Drive} {jobs : List Job}
    (hperm : (jobs.map fun j => (j.drive, j.slot.row)).Perm rows.zipIdx) :
    assemble rows.length (jobs.map Job.completed) = rows.map fun d => some (resultOf d) := by
  have hmem (n : Nat) (d : Drive) : rows[n]? = some d ↔ ∃ j ∈ jobs, j.drive = d ∧ j.slot.row = n := by
    simpa [List.mem_zipIdx_iff_getElem?] using (hperm.mem_iff (a := (d, n))).symm
  refine assemble_eq_map fun n d hd => outputRow_eq_some ?_ ?_
  · obtain ⟨j, hj, -, hrow⟩ := (hmem n d).1 hd
    exact ⟨j.completed, List.mem_map_of_mem hj, hrow⟩
  · intro r hr hrow
    obtain ⟨j, hj, rfl⟩ := List.mem_map.1 hr
    have hpresented : rows[n]? = some j.drive := (hmem n j.drive).2 ⟨j, hj, rfl, hrow⟩
    have hdrive : j.drive = d := Option.some.inj (hpresented.symm.trans hd)
    rw [Job.completed_out, hdrive]

end Sys2Proof.Machine
end

section
/-! PROOFS of the family of `spec/20_memory.md`: there is no memory, so a row presented again gives the same, and the
schedule of the rows is invisible. -/

namespace Sys2Proof
open Machine

/-- Settles O32: N steps complete the N jobs of the schedule, whatever their order and their instances, and each record
carries its row's index and the function of its row, so the assembled batch is the per-row function of every row. -/
theorem scheduleIsInvisibleInTheOutputBatch : Obligations.ScheduleIsInvisibleInTheOutputBatch := by
  intro rows jobs rest s hperm hpending
  have hlength : jobs.length = rows.length := by simpa using hperm.length_eq
  obtain ⟨t, hrun, htpending, hdone⟩ := runSteps_completes_jobs hpending
  refine ⟨t, hlength ▸ hrun, htpending, ?_⟩
  rw [hdone, List.drop_left, assemble_completed_of_perm hperm]
  exact List.map_congr_left fun d _ => by cases d <;> rfl

/-- Settles O17: the second transaction stands at the same slot and presents the same row, so it writes what is already on
the port and its record is the first one's. -/
theorem repeatedTransactionChangesNothing : Obligations.RepeatedTransactionChangesNothing := by
  intro i s t h
  obtain ⟨hdone, hslot, -⟩ := exec_next h
  obtain ⟨u, hu, -⟩ := exec_spec i t
  obtain ⟨hudone, -, -, hublock⟩ := exec_next hu
  obtain ⟨henc, hdec⟩ := exec_again_keeps_ports h hu
  exact ⟨u, resultOf (encodeDrive i), hu, henc, hdec, hublock, hdone, hslot ▸ hudone⟩

end Sys2Proof
end

section
/-! SUPPORT. The decoder (R42 to R45): a row of its port's width decodes to the operation of the row driven there, any
other row is rejected by name, and the encoding of an operation is the row that decodes to it; and what placing a table
word that decodes does (log entry 5). -/

namespace Sys2Proof
open Machine

/-- The width contract is that the row has as many bits as its port has wires (R26). -/
theorem RawTxn.wf_iff (raw : RawTxn) : raw.wf = true ↔ raw.bits.length = raw.port.width := beq_iff_eq

/-- A row that meets the width contract decodes to the operation of the drive it becomes (R44, R48). -/
theorem decode_of_wf {raw : RawTxn} (h : raw.wf = true) :
    decode raw = .ok (decodeDrive (rowDrive raw.port raw.bits)) := by
  obtain ⟨port, bits⟩ := raw
  have hlength := (RawTxn.wf_iff _).1 h
  cases port with
  | encM => exact decode_encM bits hlength
  | decR => exact decode_decR bits hlength

/-- A row that fails the width contract is rejected with its port and its own width (R45). -/
theorem decode_of_not_wf {raw : RawTxn} (h : raw.wf = false) :
    decode raw = .error (.wrongWidth raw.port raw.bits.length) := by
  obtain ⟨port, bits⟩ := raw
  have hlength := mt (RawTxn.wf_iff _).2 (Bool.eq_false_iff.1 h)
  cases port with
  | encM => exact if_neg hlength
  | decR => exact if_neg hlength

/-- The rows that decode are those of their port's width. -/
theorem wf_of_decode_eq_ok {raw : RawTxn} {i : Instr} (h : decode raw = .ok i) : raw.wf = true := by
  by_contra hwf
  rw [decode_of_not_wf (Bool.eq_false_iff.2 hwf)] at h
  cases h

/-- The port a row is driven at selects the operation (R42). -/
@[simp] theorem port_decodeDrive_rowDrive (p : Port) (bits : List Bit) :
    (decodeDrive (rowDrive p bits)).port = p := by
  cases p <;> rfl

/-- Encoding the operation of a full-width row gives the row's own bits back. -/
theorem encode_decodeDrive_rowDrive {raw : RawTxn} (h : raw.wf = true) :
    encode (decodeDrive (rowDrive raw.port raw.bits)) = raw := by
  obtain ⟨port, bits⟩ := raw
  have hlength := (RawTxn.wf_iff _).1 h
  cases port with
  | encM => exact congrArg (RawTxn.mk .encM) (bitsOf_rowOfBits bits hlength)
  | decR => exact congrArg (RawTxn.mk .decR) (bitsOf_rowOfBits bits hlength)

/-- Driving the encoding of an operation presents the operation's own row. -/
theorem rowDrive_encode (i : Instr) : rowDrive (encode i).port (encode i).bits = encodeDrive i := by
  cases i with
  | encode m => exact congrArg Drive.encM (rowOfBits_bitsOf m)
  | correct r => exact congrArg Drive.decR (rowOfBits_bitsOf r)

/-- Every instruction is well formed, and its encoding stands at its own port and meets the width contract. -/
theorem encodedWidth (i : Instr) : Laws.EncodedWidth.Statement i := by
  cases i with
  | encode m => exact Laws.EncodedWidth.encode m
  | correct r => exact Laws.EncodedWidth.correct r

/-- The encoding of an operation decodes to it (R42, R43). -/
theorem decode_encode (i : Instr) : decode (encode i) = .ok i := by
  obtain ⟨-, -, hwf⟩ := encodedWidth i
  rw [decode_of_wf hwf, rowDrive_encode, decodeDrive_encodeDrive]

/-- A table word that decodes to an operation is placed as that operation's drive, first and at the present slot. -/
theorem withFetchWord_of_decodeTableWord {nbits w : Nat} {i : Instr} (s : State)
    (h : decodeTableWord nbits w = some i) :
    s.withFetchWord nbits w = { s with pending := ⟨s.slot, encodeDrive i⟩ :: s.pending } := by
  simp [State.withFetchWord, tableDrive, h]

end Sys2Proof
end

section
/-! SUPPORT. The host's text (R48 to R50, R77, R78): when a source has no defect, and what a batch call on validated rows
produces and renders. -/

namespace Sys2Proof.Machine

/-- A line has no defect exactly when it has its port's width and only the characters '0' and '1' (R98, R99). -/
theorem lineDefects_eq_nil_iff (p : Port) (line : List Char) (n : Nat) :
    lineDefects p line n = [] ↔ line.length = p.width ∧ ∀ c ∈ line, (charBit c).isSome := by
  simp [lineDefects, Option.isSome_iff_ne_none]

/-- A source without a defective line is accepted, line by line (R48, R100). -/
theorem acquire_of_valid_lines {p : Port} {lines : List (List Char)}
    (h : ∀ l ∈ lines, l.length = p.width ∧ ∀ c ∈ l, (charBit c).isSome) :
    acquire p (some lines) = .ok (lines.map lineBits) := by
  have hnone : sourceDefects p lines = [] := by
    refine List.flatMap_eq_nil_iff.2 fun l hl => (lineDefects_eq_nil_iff p l.1 l.2).2 (h l.1 ?_)
    exact List.fst_mem_of_mem_zipIdx hl
  simp [acquire, hnone]

/-- The validated line of a row string is the row's bits in position order (R48). -/
@[simp] theorem lineBits_rowString {n : Nat} (v : BitVec n) : lineBits (rowString v) = bitsOf v := by
  simp [lineBits, rowString, List.filterMap_map]

/-- The row strings of rows of a port's width are an accepted source of the rows' bits. -/
theorem acquire_rowStrings {n : Nat} (p : Port) (h : p.width = n) (batch : List (BitVec n)) :
    acquire p (some (batch.map rowString)) = .ok (batch.map bitsOf) := by
  have hvalid : ∀ l ∈ batch.map rowString, l.length = p.width ∧ ∀ c ∈ l, (charBit c).isSome := by
    intro l hl
    obtain ⟨v, -, rfl⟩ := List.mem_map.1 hl
    exact ⟨by simp [h], charBit_of_mem_rowString v⟩
  simp [acquire_of_valid_lines hvalid]

/-- The transactions of a batch present its rows, each at its own index (R79, R82). -/
theorem map_drive_row_batchJobs (rows : List Drive) :
    ((batchJobs rows).map fun j => (j.drive, j.slot.row)) = rows.zipIdx := by
  simp [batchJobs, Function.comp_def]

/-- The transactions of a batch present its rows in order. -/
theorem map_drive_batchJobs (rows : List Drive) : (batchJobs rows).map Job.drive = rows := by
  simpa [Function.comp_def] using congrArg (List.map Prod.fst) (map_drive_row_batchJobs rows)

/-- Issued with nothing else pending, jobs complete in as many steps, in order. -/
theorem runSteps_issue {s : State} (h : s.pending = []) (jobs : List Job) :
    ∃ t, runSteps jobs.length (s.issue jobs) = .next t ∧ t.pending = [] ∧
      t.done = s.done ++ jobs.map Job.completed :=
  runSteps_completes_jobs (by simp [h])

/-- A batch call with nothing else pending produces the unit's function of every row, at the row's index (R77, R78). -/
theorem runBatch_assembles {s : State} (h : s.pending = []) (rows : List Drive) :
    ∃ t, runBatch rows s = .next t ∧ t.pending = [] ∧
      assemble rows.length (t.done.drop s.done.length) = rows.map fun d => some (resultOf d) := by
  obtain ⟨t, hrun, hpending, hdone⟩ := runSteps_issue h (batchJobs rows)
  rw [length_batchJobs] at hrun
  refine ⟨t, by rw [runBatch_of_nothing_pending rows h, hrun], hpending, ?_⟩
  rw [hdone, List.drop_left, assemble_completed_of_perm (.of_eq (map_drive_row_batchJobs rows))]

/-- The host's call on an accepted source renders, row by row, what the unit makes of the validated rows (R50). -/
theorem hostCall_renders {p : Port} {lines : List (List Char)} {rows : List (List Bit)} {s : State}
    (hacquire : acquire p (some lines) = .ok rows) (h : s.pending = []) :
    ∃ t, hostCall p (some lines) s = .ok (.next t) ∧
      renderBatch (assemble rows.length (t.done.drop s.done.length)) =
        rows.map fun bits => renderOut (resultOf (rowDrive p bits)) := by
  obtain ⟨t, hrun, -, hassemble⟩ := runBatch_assembles h (rows.map (rowDrive p))
  rw [List.length_map] at hassemble
  refine ⟨t, by simp [hostCall, hacquire, hrun], ?_⟩
  simp [hassemble, renderBatch, List.filterMap_map, Function.comp_def]

/-- The characters that select no mode are all but 'e' and 'd' (R49). -/
theorem modePort_eq_none_iff (c : Char) : modePort c = none ↔ c ≠ 'e' ∧ c ≠ 'd' := by
  by_cases he : c = 'e'
  · simp [modePort, he]
  · by_cases hd : c = 'd' <;> simp [modePort, he, hd]

/-- The prompt reads past characters that select no mode (R49). -/
theorem promptMode_append {junk : List Char} (h : ∀ c ∈ junk, modePort c = none) (cs : List Char) :
    promptMode (junk ++ cs) = promptMode cs := by
  induction junk with
  | nil => rfl
  | cons c junk ih =>
    obtain ⟨hc, hjunk⟩ := List.forall_mem_cons.1 h
    simp [promptMode, hc, ih hjunk]

end Sys2Proof.Machine
end

section
/-! SUPPORT. The reader of scripts (R47): a line's words, the transaction two words give, and a script line by line. -/

namespace Sys2Proof.Machine

/-- A word of a script line: at least one character, none of them a blank or the start of a comment. -/
def IsScriptWord (w : List Char) : Prop := w ≠ [] ∧ ∀ c ∈ w, c ≠ ' ' ∧ c ≠ ';'

/-- A text without blanks, before a blank, is cut off as the first word. -/
theorem splitBlanks_append_blank {w : List Char} (h : ∀ c ∈ w, c ≠ ' ') (cs : List Char) :
    splitBlanks (w ++ ' ' :: cs) = w :: splitBlanks cs := by
  induction w with
  | nil => simp [splitBlanks]
  | cons c w ih =>
    obtain ⟨hc, hw⟩ := List.forall_mem_cons.1 h
    simp [splitBlanks, hc, ih hw]

/-- A text without blanks is one word. -/
theorem splitBlanks_word {w : List Char} (h : ∀ c ∈ w, c ≠ ' ') (hne : w ≠ []) : splitBlanks w = [w] := by
  induction w with
  | nil => exact absurd rfl hne
  | cons c w ih =>
    obtain ⟨hc, hw⟩ := List.forall_mem_cons.1 h
    cases w with
    | nil => simp [splitBlanks, hc]
    | cons d w => rw [splitBlanks, if_neg hc, ih hw (List.cons_ne_nil d w)]

/-- What stands before a comment reaches past every word. -/
theorem takeWhile_word_append {w : List Char} (h : IsScriptWord w) (cs : List Char) :
    (w ++ cs).takeWhile (· != ';') = w ++ cs.takeWhile (· != ';') :=
  List.takeWhile_append_of_pos fun c hc => by simpa using (h.2 c hc).2

/-- A line that starts with a word and a blank has that word and the words after the blank. -/
theorem lineWords_append_blank {w : List Char} (h : IsScriptWord w) (cs : List Char) :
    lineWords (w ++ ' ' :: cs) = w :: lineWords cs := by
  have hblank : (' ' :: cs).takeWhile (· != ';') = ' ' :: cs.takeWhile (· != ';') :=
    List.takeWhile_cons_of_pos (by decide)
  rw [lineWords, takeWhile_word_append h, hblank, splitBlanks_append_blank fun c hc => (h.2 c hc).1,
    List.filter_cons_of_pos (by simpa using h.1), lineWords]

/-- A line that is one word has that word. -/
theorem lineWords_word {w : List Char} (h : IsScriptWord w) : lineWords w = [w] := by
  have hall : w.takeWhile (· != ';') = w := by simpa using takeWhile_word_append h []
  rw [lineWords, hall, splitBlanks_word (fun c hc => (h.2 c hc).1) h.1,
    List.filter_cons_of_pos (by simpa using h.1), List.filter_nil]

/-- A comment has no words. -/
theorem lineWords_comment (cs : List Char) : lineWords (';' :: cs) = [] := rfl

/-- The mnemonic of the operation at a port (R43, R47). -/
def portMnemonic : Port → List Char
  | .encM => encodeMnemonic
  | .decR => correctMnemonic

/-- The operand of a transaction as a script writes it: the row string of the encoded row (R47). -/
def operandString (i : Instr) : List Char := (encode i).bits.map bitChar

theorem scriptLine_eq (i : Instr) : scriptLine i = portMnemonic i.port ++ ' ' :: operandString i := by
  cases i <;> rfl

@[simp] theorem mnemonicPort_portMnemonic (p : Port) : mnemonicPort (portMnemonic p) = some p := by
  cases p <;> rfl

theorem isScriptWord_portMnemonic (p : Port) : IsScriptWord (portMnemonic p) := by
  cases p <;> simp [IsScriptWord, portMnemonic, encodeMnemonic, correctMnemonic]

/-- An operand is as long as its port is wide, so not empty, and its characters are '0' and '1'. -/
theorem isScriptWord_operandString (i : Instr) : IsScriptWord (operandString i) := by
  constructor
  · obtain ⟨-, -, hwf⟩ := encodedWidth i
    have hlength : (operandString i).length = (encode i).port.width := by
      simpa [operandString] using (RawTxn.wf_iff _).1 hwf
    have hpos : 0 < (encode i).port.width := by cases (encode i).port <;> decide
    exact List.ne_nil_of_length_pos (hlength ▸ hpos)
  · intro c hc
    obtain ⟨b, -, rfl⟩ := List.mem_map.1 hc
    cases b <;> decide

/-- The operand of a transaction is read back at the transaction's port: the characters give the encoded row's bits, and
the encoded row decodes to the transaction. -/
theorem parseOperand_operandString (i : Instr) : parseOperand i.port (operandString i) = .ok i := by
  obtain ⟨-, hport, -⟩ := encodedWidth i
  have hdecode : decode ⟨i.port, (encode i).bits⟩ = .ok i := hport ▸ decode_encode i
  simp [parseOperand, operandString, bitsOfString_map_bitChar, hdecode]

/-- A line whose words are a transaction's mnemonic and operand reads as the transaction. -/
theorem parseLine_of_lineWords {line : List Char} {i : Instr}
    (h : lineWords line = [portMnemonic i.port, operandString i]) : parseLine line = .ok (some i) := by
  simp [parseLine, h, parseOperand_operandString, Except.map]

/-- A bare transaction line reads as its transaction. -/
theorem parseLine_scriptLine (i : Instr) : parseLine (scriptLine i) = .ok (some i) := by
  apply parseLine_of_lineWords
  rw [scriptLine_eq, lineWords_append_blank (isScriptWord_portMnemonic i.port),
    lineWords_word (isScriptWord_operandString i)]

/-- A transaction line with a blank and a comment after it reads as its transaction. -/
theorem parseLine_scriptLine_comment (i : Instr) (cs : List Char) :
    parseLine (scriptLine i ++ ' ' :: ';' :: cs) = .ok (some i) := by
  apply parseLine_of_lineWords
  rw [scriptLine_eq, List.append_assoc, List.cons_append,
    lineWords_append_blank (isScriptWord_portMnemonic i.port),
    lineWords_append_blank (isScriptWord_operandString i), lineWords_comment]

/-- The result stands in the line's comment, so the line reads as its transaction. -/
theorem parseLine_scriptLineWithResult (i : Instr) : parseLine (scriptLineWithResult i) = .ok (some i) := by
  rw [scriptLineWithResult, List.append_assoc]
  exact parseLine_scriptLine_comment i _

/-- A comment line is no transaction. -/
theorem parseLine_comment (cs : List Char) : parseLine (';' :: cs) = .ok none := by
  simp [parseLine, lineWords_comment]

/-- A line without a transaction adds none to the script. -/
theorem parseScript_cons_none {l : List Char} (h : parseLine l = .ok none) (ls : List (List Char)) :
    parseScript (l :: ls) = parseScript ls := by
  rw [parseScript, h]
  cases parseScript ls <;> rfl

/-- A line with a transaction puts it before those of the lines below. -/
theorem parseScript_cons_some {l : List Char} {ls : List (List Char)} {i : Instr} {is : List Instr}
    (h : parseLine l = .ok (some i)) (hrest : parseScript ls = .ok is) :
    parseScript (l :: ls) = .ok (i :: is) := by
  rw [parseScript, h, hrest]

end Sys2Proof.Machine
end

section
/-! PROOFS of the family of `spec/30_encoding.md`: decoding and encoding, the host's text, the prompt, scripts, and the
step that runs the decoded transaction. -/

namespace Sys2Proof
open Machine

/-- Settles O27: an encoded row has its port's width and is driven as the operation's own row; conversely a row that
decodes has its port's width, and then its operation encodes to its own bits. -/
theorem decodeAndEncodeAreInverse : Obligations.DecodeAndEncodeAreInverse := by
  constructor
  · intro i
    obtain ⟨hi, -, hwf⟩ := encodedWidth i
    exact ⟨hi, hwf, decode_encode i⟩
  · intro raw i h
    have hwf : raw.wf = true := wf_of_decode_eq_ok h
    have hi : decodeDrive (rowDrive raw.port raw.bits) = i := Except.ok.inj ((decode_of_wf hwf).symm.trans h)
    rw [← hi, encode_decodeDrive_rowDrive hwf]

/-- Settles O28: the width contract is the only check the decoder makes. -/
theorem exactlyTheFullWidthRowsDecode : Obligations.ExactlyTheFullWidthRowsDecode :=
  fun raw => ⟨fun h => ⟨_, decode_of_wf h, port_decodeDrive_rowDrive raw.port raw.bits⟩, decode_of_not_wf⟩

/-- Settles O36: row strings are an accepted source, whose validated rows are the batch's own rows at the mode's port. -/
theorem textIsTransformedLineByLine : Obligations.TextIsTransformedLineByLine := by
  intro s h
  constructor
  · intro batch
    obtain ⟨t, hcall, hrender⟩ := hostCall_renders (acquire_rowStrings (n := 4) .encM rfl batch) h
    exact ⟨t, hcall, by simpa [rowDrive, Function.comp_def, rowOfBits_bitsOf, resultOf, renderOut] using hrender⟩
  · intro batch
    obtain ⟨t, hcall, hrender⟩ := hostCall_renders (acquire_rowStrings (n := 7) .decR rfl batch) h
    exact ⟨t, hcall, by simpa [rowDrive, Function.comp_def, rowOfBits_bitsOf, resultOf, renderOut] using hrender⟩

/-- Settles O37: the prompt reads past the characters before the mode, and then the mode character decides; without one the
input ends (log entry 10). -/
theorem promptRepeatsUntilValidMode : Obligations.PromptRepeatsUntilValidMode := by
  intro junk rest h
  have hskip := promptMode_append fun c hc => (modePort_eq_none_iff c).2 (h c hc)
  exact ⟨hskip ('e' :: rest), hskip ('d' :: rest), by simpa [promptMode] using hskip []⟩

/-- Settles O39: by induction on the transactions each line reads as its own, comment lines adding none; and the jobs of a
script complete in order and present the transactions' rows. -/
theorem scriptReadsBackAndRunsInOrder : Obligations.ScriptReadsBackAndRunsInOrder := by
  intro is comment
  refine ⟨?_, ?_, fun s h => ?_⟩
  · induction is with
    | nil => rfl
    | cons i is ih =>
      exact (parseScript_cons_none (parseLine_comment comment) _).trans
        (parseScript_cons_some (parseLine_scriptLineWithResult i) ih)
  · induction is with
    | nil => rfl
    | cons i is ih => exact parseScript_cons_some (parseLine_scriptLine i) ih
  · obtain ⟨t, hrun, -, hdone⟩ := runSteps_issue h (scriptJobs is)
    have hlength : (scriptJobs is).length = is.length := by simp [scriptJobs]
    refine ⟨t, hlength ▸ hrun, ?_⟩
    calc (t.done.drop s.done.length).map (fun d => decodeDrive d.drive)
        = ((scriptJobs is).map Job.drive).map decodeDrive := by simp [hdone]
      _ = (is.map encodeDrive).map decodeDrive := by rw [scriptJobs, map_drive_batchJobs]
      _ = is := by simp [Function.comp_def]

/-- Settles O23: the step turns to the next job and runs what its port selects; a placed table word is the next job, at the
slot where the host stands already, so turning to it restores the state it was placed in. -/
theorem stepRunsTheDecodedTransaction : Obligations.StepRunsTheDecodedTransaction := by
  refine ⟨fun s j rest h => step_cons h, fun m r => ⟨rfl, rfl⟩, fun s h => step_nil h, fun s nbits w i h => ?_⟩
  rw [withFetchWord_of_decodeTableWord s h, step_cons rfl, decodeDrive_encodeDrive]
  rfl

end Sys2Proof
end

section
/-! SUPPORT. The laws of the code: ENCODE and the syndrome are linear, every codeword has zero syndrome and every row with
zero syndrome is the codeword of its data positions, and the working copy of CORRECT is such a row, at most one flip away
from the row received. -/

namespace Sys2Proof.Machine

/-- An integer entry of a matrix selects or drops a bit, so modulo 2 it distributes over the XOR of two rows (R54). -/
theorem mod2_mul_pos_xor {n : Nat} (g : Nat) (u v : BitVec n) (i : Nat) :
    mod2 (g * bitNat (pos (u ^^^ v) i)) = (mod2 (g * bitNat (pos u i)) ^^ mod2 (g * bitNat (pos v i))) := by
  rw [pos_xor]
  cases pos u i <;> cases pos v i <;> simp [bitNat, mod2]

/-- Two numbers that are each a sum of two modulo 2 add up to the sum of the sums of their parts modulo 2. -/
theorem mod2_add_eq_xor {x y a b c d : Nat} (hx : mod2 x = (mod2 a ^^ mod2 b)) (hy : mod2 y = (mod2 c ^^ mod2 d)) :
    mod2 (x + y) = (mod2 (a + c) ^^ mod2 (b + d)) := by
  simp only [mod2_add, hx, hy, Bool.xor_assoc, Bool.xor_left_comm]

/-- ENCODE is linear (R59): each row of `G . m` modulo 2 is, term by term. -/
theorem encodeRow_xor (a b : MsgRow) : encodeRow (a ^^^ b) = encodeRow a ^^^ encodeRow b := by
  apply row_ext
  intro i hi
  have hterm (j : Nat) := mod2_mul_pos_xor (gEntry i j) a b j
  rw [pos_xor, pos_encodeRow _ i hi, pos_encodeRow _ i hi, pos_encodeRow _ i hi]
  exact mod2_add_eq_xor (mod2_add_eq_xor (mod2_add_eq_xor (hterm 0) (hterm 1)) (hterm 2)) (hterm 3)

/-- The syndrome is linear: each row of `H . r` modulo 2 is, term by term. -/
theorem syndrome_xor (r u : CwRow) : syndrome (r ^^^ u) = syndrome r ^^^ syndrome u := by
  apply row_ext
  intro i hi
  have hterm (j : Nat) := mod2_mul_pos_xor (hEntry i j) r u j
  rw [pos_xor, pos_syndrome _ i hi, pos_syndrome _ i hi, pos_syndrome _ i hi]
  exact mod2_add_eq_xor (mod2_add_eq_xor (mod2_add_eq_xor (mod2_add_eq_xor (mod2_add_eq_xor (mod2_add_eq_xor
    (hterm 0) (hterm 1)) (hterm 2)) (hterm 3)) (hterm 4)) (hterm 5)) (hterm 6)

/-- ENCODE's seven XORs (R53), one for each position. -/
theorem pos_encodeRow_eq_xors (m : MsgRow) :
    pos (encodeRow m) 0 = (pos m 0 ^^ pos m 1 ^^ pos m 3) ∧
    pos (encodeRow m) 1 = (pos m 0 ^^ pos m 2 ^^ pos m 3) ∧
    pos (encodeRow m) 2 = pos m 0 ∧
    pos (encodeRow m) 3 = (pos m 1 ^^ pos m 2 ^^ pos m 3) ∧
    pos (encodeRow m) 4 = pos m 1 ∧
    pos (encodeRow m) 5 = pos m 2 ∧
    pos (encodeRow m) 6 = pos m 3 := by
  simpa [bitsOf, List.range_succ] using bitsOf_encodeRow m

/-- Rows DAT of G are the unit rows (R55). -/
theorem gEntry_dat : ∀ i, i < 4 → ∀ j, j < 4 → gEntry (dat i) j = if i = j then 1 else 0 := by decide

/-- The codeword carries message position j at position DAT[j] (R55). -/
theorem pos_encodeRow_dat (m : MsgRow) {j : Nat} (hj : j < 4) : pos (encodeRow m) (dat j) = pos m j := by
  obtain ⟨-, -, h2, -, h4, h5, h6⟩ := pos_encodeRow_eq_xors m
  interval_cases j
  · exact h2
  · exact h4
  · exact h5
  · exact h6

/-- Extraction inverts ENCODE (R55). -/
@[simp] theorem extractRow_encodeRow (m : MsgRow) : extractRow (encodeRow m) = m :=
  row_ext fun j hj => by rw [pos_extractRow _ j hj, pos_encodeRow_dat m hj]

/-- A syndrome is zero exactly when its three parity checks are (R63). -/
theorem syndrome_eq_zero_iff (r : CwRow) :
    syndrome r = 0#3 ↔
      (pos r 0 ^^ pos r 2 ^^ pos r 4 ^^ pos r 6) = false ∧ (pos r 1 ^^ pos r 2 ^^ pos r 5 ^^ pos r 6) = false ∧
      (pos r 3 ^^ pos r 4 ^^ pos r 5 ^^ pos r 6) = false := by
  rw [← pos_syndrome_zero, ← pos_syndrome_one, ← pos_syndrome_two]
  generalize syndrome r = v
  revert v
  decide

/-- Every codeword has zero syndrome (R56): each message bit enters each parity check an even number of times. -/
@[simp] theorem syndrome_encodeRow (m : MsgRow) : syndrome (encodeRow m) = 0#3 := by
  obtain ⟨h0, h1, h2, h3, h4, h5, h6⟩ := pos_encodeRow_eq_xors m
  rw [syndrome_eq_zero_iff, h0, h1, h2, h3, h4, h5, h6]
  generalize pos m 0 = a, pos m 1 = b, pos m 2 = c, pos m 3 = d
  revert a b c d
  decide

/-- A row with zero syndrome is the codeword of its data positions: the parity checks determine the other three (R59). -/
theorem encodeRow_extractRow {c : CwRow} (h : syndrome c = 0#3) : encodeRow (extractRow c) = c := by
  obtain ⟨hs0, hs1, hs2⟩ := (syndrome_eq_zero_iff c).1 h
  obtain ⟨h0, h1, h2, h3, h4, h5, h6⟩ := pos_encodeRow_eq_xors (extractRow c)
  simp only [pos_extractRow, Nat.reduceLT, dat, datColumns, List.getD_cons_zero, List.getD_cons_succ]
    at h0 h1 h2 h3 h4 h5 h6
  apply row_ext
  intro i hi
  interval_cases i
  · symm
    simpa [h0] using hs0
  · symm
    simpa [h1] using hs1
  · exact h2
  · symm
    simpa [h3] using hs2
  · exact h4
  · exact h5
  · exact h6

/-- The codewords are exactly the rows with zero syndrome (R56, R59). -/
theorem syndrome_eq_zero_iff_exists_encodeRow (c : CwRow) : syndrome c = 0#3 ↔ ∃ m, encodeRow m = c := by
  constructor
  · exact fun h => ⟨extractRow c, encodeRow_extractRow h⟩
  · rintro ⟨m, rfl⟩
    exact syndrome_encodeRow m

/-- k is the syndrome read as a binary number (R64). -/
theorem syndromeK_eq_toNat (r : CwRow) : syndromeK r = (syndrome r).toNat := by
  unfold syndromeK
  generalize syndrome r = v
  revert v
  decide

/-- The syndrome of one complemented position is that column of H, the position plus one in binary (R12). -/
theorem syndrome_unitRow {p : Nat} (hp : p < 7) : syndrome (unitRow p) = BitVec.ofNat 3 (p + 1) := by
  revert p
  decide

/-- With k = 0 the working copy is the row received (R65). -/
theorem fixRow_of_syndromeK_zero {r : CwRow} (h : syndromeK r = 0) : fixRow r = r :=
  fixRow_of_index_neg_one ((wrongBitIndex_eq_neg_one_iff r).2 h)

/-- With any other k the working copy has position k - 1 complemented (R66). -/
theorem fixRow_of_syndromeK_ne_zero {r : CwRow} (h : syndromeK r ≠ 0) :
    fixRow r = r ^^^ unitRow (syndromeK r - 1) := by
  have hindex : (wrongBitIndex r).toNat = syndromeK r - 1 := by
    unfold wrongBitIndex
    omega
  rw [fixRow_of_index_pos (mt (wrongBitIndex_eq_neg_one_iff r).1 h), flipAt_eq_xor, hindex]

/-- The position that CORRECT complements is one of the row's. -/
theorem syndromeK_sub_one_lt (r : CwRow) : syndromeK r - 1 < 7 := by
  have hlt := (syndrome r).isLt
  rw [syndromeK_eq_toNat]
  omega

/-- The working copy has zero syndrome: complementing position k - 1 adds the syndrome once more (R73). -/
@[simp] theorem syndrome_fixRow (r : CwRow) : syndrome (fixRow r) = 0#3 := by
  by_cases hk : syndromeK r = 0
  · rw [fixRow_of_syndromeK_zero hk]
    exact BitVec.eq_of_toNat_eq (syndromeK_eq_toNat r ▸ hk)
  · have hcolumn : syndrome (unitRow (syndromeK r - 1)) = syndrome r := by
      rw [syndrome_unitRow (syndromeK_sub_one_lt r), Nat.sub_add_cancel (Nat.pos_of_ne_zero hk), syndromeK_eq_toNat,
        BitVec.ofNat_toNat, BitVec.setWidth_eq]
    rw [fixRow_of_syndromeK_ne_zero hk, syndrome_xor, hcolumn, BitVec.xor_self]

/-- The working copy is the codeword of the message that CORRECT returns (R73). -/
@[simp] theorem encodeRow_correctRow (r : CwRow) : encodeRow (correctRow r) = fixRow r :=
  encodeRow_extractRow (syndrome_fixRow r)

theorem weight_unitRow {p : Nat} (hp : p < 7) : weight (unitRow p) = 1 := by
  revert p
  decide

/-- The working copy lies within one flip of the row received (R66, R73). -/
theorem distance_fixRow_le_one (r : CwRow) : distance (fixRow r) r ≤ 1 := by
  by_cases hk : syndromeK r = 0
  · rw [fixRow_of_syndromeK_zero hk, distance, BitVec.xor_self]
    decide
  · rw [fixRow_of_syndromeK_ne_zero hk, distance, BitVec.xor_comm r, BitVec.xor_assoc, BitVec.xor_self, BitVec.xor_zero,
      weight_unitRow (syndromeK_sub_one_lt r)]

/-- The distance of two codewords is the weight of the codeword of the messages' difference. -/
theorem distance_encodeRow (a b : MsgRow) : distance (encodeRow a) (encodeRow b) = weight (encodeRow (a ^^^ b)) := by
  rw [distance, encodeRow_xor]

/-- Every codeword but the zero one has weight at least 3 (R58). -/
theorem three_le_weight_encodeRow {m : MsgRow} (h : m ≠ 0#4) : 3 ≤ weight (encodeRow m) := by
  revert m
  decide

end Sys2Proof.Machine
end

section
/-! SUPPORT. The ENCODE transaction: what it does to the ports and to earlier records, and that every completed
transaction is lawful. -/

namespace Sys2Proof.Machine

/-- An ENCODE transaction writes the row presented to `enc_m` of the slot's instance and no other port. -/
theorem exec_encode_ports {m : MsgRow} {s t : State} (h : exec (.encode m) s = .next t) :
    t.encM = s.encM.set s.slot.inst m ∧ t.decR = s.decR := by
  rw [exec_encode_eq, Host.Outcome.next.injEq] at h
  simp [← h]

/-- A transaction adds one record behind the earlier ones, which stay. -/
theorem exec_keeps_records {i : Instr} {s t : State} (h : exec i s = .next t) :
    t.done.length = s.done.length + 1 ∧ ∀ n, n < s.done.length → t.done[n]? = s.done[n]? := by
  obtain ⟨hdone, -⟩ := exec_next h
  rw [hdone]
  exact ⟨by simp, fun n hn => List.getElem?_append_left hn⟩

/-- What a completed job leaves on record agrees with the laws of the code (R55, R56, R73). -/
theorem lawful_completed (j : Job) : j.completed.lawful = true := by
  obtain ⟨slot, drive⟩ := j
  cases drive with
  | encM m => simp [Job.completed, resultOf, Done.lawful]
  | decR r => simpa [Job.completed, resultOf, Done.lawful] using distance_fixRow_le_one r

end Sys2Proof.Machine
end

section
/-! PROOFS of the family of `spec/40_encode.md`: the function ENCODE and its code, the ENCODE transaction, and the record
that every step keeps lawful. -/

namespace Sys2Proof
open Machine

/-- Settles O26: a step that adds a record adds that of the job it completes, which is lawful. -/
theorem stepKeepsRecordLawful : Obligations.StepKeepsRecordLawful := by
  intro s t hinv hstep
  obtain ⟨-, rfl⟩ | ⟨j, rest, -, -, -, hdone⟩ := step_cases hstep
  · exact hinv
  · intro d hd
    rw [hdone, List.mem_append, List.mem_singleton] at hd
    obtain hold | rfl := hd
    · exact hinv d hold
    · exact lawful_completed j

/-- Settles O3: the transaction records `encodeRow m`, which stands at `enc_c` because the instance's `enc_m` holds m; its
positions are the reduced sums by definition and the XORs by `pos_encodeRow_eq_xors`. -/
theorem encodeTransactionReturnsCodeword : Obligations.EncodeTransactionReturnsCodeword := by
  intro m s
  obtain ⟨t, ht, hdone, -⟩ := exec_spec (.encode m) s
  obtain ⟨henc, -⟩ := exec_encode_ports ht
  have hport : t.encC s.slot.inst = encodeRow m := by simp [State.encC, State.encInput, henc]
  exact ⟨t, encodeRow m, ht, hdone, hport, pos_encodeRow m, pos_encodeRow_eq_xors m⟩

/-- Settles O7: the two changes are the row at one ENC port and the record at the end. -/
theorem encodeTransactionFrame : Obligations.EncodeTransactionFrame := by
  intro m s t h
  obtain ⟨-, hslot, hpending, hblock⟩ := exec_next h
  obtain ⟨henc, hdec⟩ := exec_encode_ports h
  have hother (k : Nat) (hk : s.encM.index k ≠ s.encM.index s.slot.inst) : t.encInput k = s.encInput k := by
    rw [State.encInput, henc, Bank.get_set_other _ _ _ _ hk, State.encInput]
  refine ⟨hblock, hdec, hslot, hpending, by simp [henc], by simp [State.encInput, henc], fun k hk => ?_,
    exec_keeps_records h⟩
  exact ⟨hother k hk, congrArg encodeRow (hother k hk)⟩

/-- Settles O4: the data positions among ENCODE's seven XORs hold one message bit each, in the order of DAT. -/
theorem codewordCarriesMessageInOrder : Obligations.CodewordCarriesMessageInOrder := by
  intro m
  obtain ⟨h0, h1, h2, h3, h4, h5, h6⟩ := pos_encodeRow_eq_xors m
  exact ⟨fun j hj => pos_encodeRow_dat m hj, h2, h4, h5, h6, gEntry_dat, h0, h1, h3⟩

/-- Settles O5: the sixteen rows of the printed table are evaluated. -/
theorem encodeFunctionTable : Obligations.EncodeFunctionTable := by
  unfold Obligations.EncodeFunctionTable
  decide

/-- Settles O6: linearity turns the distance of two codewords into the weight of one; extraction inverts ENCODE; the
weights of the sixteen codewords are counted. -/
theorem codeIsLinearWithDistanceThree : Obligations.CodeIsLinearWithDistanceThree := by
  refine ⟨encodeRow_xor, by decide, Function.LeftInverse.injective extractRow_encodeRow, fun a b hab => ?_,
    ⟨0#4, 1#4, by decide⟩, by decide, syndrome_eq_zero_iff_exists_encodeRow⟩
  rw [distance_encodeRow]
  exact three_le_weight_encodeRow (mt BitVec.xor_eq_zero_iff.1 hab)

end Sys2Proof
end

section
/-! SUPPORT. CORRECT on a received row: the syndrome as row of `H . r` and as the digits of k (R62, R64), the mask that the
correction adds (R66, R67), and what it does to a codeword with at most one position complemented (R71, R84). -/

namespace Sys2Proof.Machine

/-- The integer sum of a syndrome component is the sum of row i of H times the row (R62). -/
theorem syndromeSum_eq_sum (r : CwRow) (i : Nat) :
    syndromeSum r i = ((List.range 7).map fun j => hEntry i j * bitNat (pos r j)).sum := by
  simp [syndromeSum, List.range_succ, Nat.add_assoc]

/-- index is the weighted sum of the syndrome components less one, over the integers (R64). -/
theorem wrongBitIndex_eq (r : CwRow) :
    wrongBitIndex r = (bitNat (pos (syndrome r) 0) : Int) + 2 * bitNat (pos (syndrome r) 1)
      + 4 * bitNat (pos (syndrome r) 2) - 1 := by
  simp [wrongBitIndex, syndromeK]

theorem syndromeK_lt (r : CwRow) : syndromeK r < 8 := by
  rw [syndromeK_eq_toNat]
  exact (syndrome r).isLt

/-- k selects the syndrome (R64). -/
theorem syndrome_eq_ofNat (r : CwRow) : syndrome r = BitVec.ofNat 3 (syndromeK r) := by
  simp [syndromeK_eq_toNat]

theorem syndromeK_eq_zero_iff (r : CwRow) : syndromeK r = 0 ↔ syndrome r = 0#3 := by
  rw [syndromeK_eq_toNat, ← BitVec.toNat_inj, BitVec.toNat_zero]

/-- A syndrome is zero exactly when its three components are. -/
theorem syndrome_eq_zero_iff_components (r : CwRow) :
    syndrome r = 0#3 ↔
      pos (syndrome r) 0 = false ∧ pos (syndrome r) 1 = false ∧ pos (syndrome r) 2 = false := by
  rw [syndrome_eq_zero_iff, pos_syndrome_zero, pos_syndrome_one, pos_syndrome_two]

/-- Column p of H is p + 1 in binary, component 0 least significant (R12). -/
theorem bitNat_pos_ofNat_eq_hEntry :
    ∀ p, p < 7 → ∀ i, i < 3 → bitNat (pos (BitVec.ofNat 3 (p + 1)) i) = hEntry i p := by decide

/-- The unit row of p is the port value 2^p (R9). -/
theorem toNat_unitRow {p : Nat} (hp : p < 7) : (unitRow p).toNat = 2 ^ p := by
  revert p
  decide

/-- The unit row of a parity position is 0 at every data position: PAR and DAT are disjoint (R13). -/
theorem pos_unitRow_dat : ∀ p ∈ parColumns, ∀ j, j < 4 → pos (unitRow p) (dat j) = false := by decide

/-- The working copy in the form of R66: the row, or the row plus the unit row of index. -/
theorem fixRow_eq_ite (r : CwRow) :
    fixRow r = if wrongBitIndex r = -1 then r else r ^^^ unitRow (wrongBitIndex r).toNat := by
  rw [fixRow, flipAt_eq_xor]

/-- The mask of the correction: nothing at k = 0, else position k - 1 (R67). -/
theorem fixRow_xor_self (r : CwRow) :
    fixRow r ^^^ r = if syndromeK r = 0 then 0#7 else unitRow (syndromeK r - 1) := by
  split
  next hk => rw [fixRow_of_syndromeK_zero hk, BitVec.xor_self]
  next hk => rw [fixRow_of_syndromeK_ne_zero hk, BitVec.xor_comm r, xor_cancel_right]

/-- The mask's port value (R67). -/
theorem toNat_fixRow_xor_self (r : CwRow) :
    (fixRow r ^^^ r).toNat = if syndromeK r = 0 then 0 else 2 ^ (syndromeK r - 1) := by
  rw [fixRow_xor_self, apply_ite BitVec.toNat, toNat_unitRow (syndromeK_sub_one_lt r), BitVec.toNat_zero]

/-- A row that the correction changes is at distance exactly 1 from the working copy (R66). -/
theorem distance_fixRow_of_syndromeK_ne_zero {r : CwRow} (hk : syndromeK r ≠ 0) : distance (fixRow r) r = 1 := by
  rw [distance, fixRow_xor_self, if_neg hk, weight_unitRow (syndromeK_sub_one_lt r)]

/-- One flip of a codeword gives that column of H as syndrome (R84). -/
theorem syndrome_encodeRow_xor_unitRow (m : MsgRow) {p : Nat} (hp : p < 7) :
    syndrome (encodeRow m ^^^ unitRow p) = BitVec.ofNat 3 (p + 1) := by
  rw [syndrome_xor, syndrome_encodeRow, syndrome_unitRow hp, BitVec.zero_xor]

/-- One flip of a codeword gives k one more than the position flipped. -/
theorem syndromeK_encodeRow_xor_unitRow (m : MsgRow) {p : Nat} (hp : p < 7) :
    syndromeK (encodeRow m ^^^ unitRow p) = p + 1 := by
  rw [syndromeK_eq_toNat, syndrome_encodeRow_xor_unitRow m hp, BitVec.toNat_ofNat]
  omega

/-- A codeword is its own working copy (R83). -/
theorem fixRow_encodeRow (m : MsgRow) : fixRow (encodeRow m) = encodeRow m :=
  fixRow_of_syndromeK_zero ((syndromeK_eq_zero_iff _).2 (syndrome_encodeRow m))

/-- One flip of a codeword is complemented back (R84). -/
theorem fixRow_encodeRow_xor_unitRow (m : MsgRow) {p : Nat} (hp : p < 7) :
    fixRow (encodeRow m ^^^ unitRow p) = encodeRow m := by
  have hk := syndromeK_encodeRow_xor_unitRow m hp
  rw [fixRow_of_syndromeK_ne_zero (by omega), hk, Nat.add_sub_cancel, xor_cancel_right]

/-- The channel of the guarantee (R71, R84): the row received is the row sent with at most one position complemented. -/
def AtMostOneFlip (c r : CwRow) : Prop := r = c ∨ ∃ p, p < 7 ∧ r = c ^^^ unitRow p

/-- A row of weight at most 1 is zero or a unit row. -/
theorem eq_zero_or_eq_unitRow_of_weight_le_one {v : CwRow} (h : weight v ≤ 1) :
    v = 0#7 ∨ ∃ p, p < 7 ∧ v = unitRow p := by
  revert v
  decide

/-- Rows within distance 1 differ by at most one flip. -/
theorem atMostOneFlip_of_distance_le_one {c r : CwRow} (h : distance c r ≤ 1) : AtMostOneFlip c r := by
  have hr : r = c ^^^ (c ^^^ r) := (xor_cancel_left c r).symm
  obtain hzero | ⟨p, hp, hunit⟩ := eq_zero_or_eq_unitRow_of_weight_le_one h
  · exact .inl (BitVec.xor_eq_zero_iff.1 hzero).symm
  · exact .inr ⟨p, hp, hunit ▸ hr⟩

/-- The working copy of a codeword with at most one flip is the codeword (R71, R84). -/
theorem fixRow_of_atMostOneFlip {m : MsgRow} {r : CwRow} (h : AtMostOneFlip (encodeRow m) r) :
    fixRow r = encodeRow m := by
  obtain rfl | ⟨p, hp, rfl⟩ := h
  · exact fixRow_encodeRow m
  · exact fixRow_encodeRow_xor_unitRow m hp

/-- CORRECT recovers the message from its codeword with at most one flip (R71). -/
theorem correctRow_of_atMostOneFlip {m : MsgRow} {r : CwRow} (h : AtMostOneFlip (encodeRow m) r) :
    correctRow r = m := by
  rw [correctRow, fixRow_of_atMostOneFlip h, extractRow_encodeRow]

/-- CORRECT recovers a batch of messages from their codewords with at most one flip each (R71, R78). -/
theorem map_correctRow_of_atMostOneFlip {messages : List MsgRow} {received : List CwRow}
    (h : List.Forall₂ AtMostOneFlip (messages.map encodeRow) received) : received.map correctRow = messages := by
  have hrows : List.Forall₂ (fun m r => m = correctRow r) messages received :=
    (List.forall₂_map_left_iff.1 h).imp fun _ _ hflip => (correctRow_of_atMostOneFlip hflip).symm
  have hlists : List.Forall₂ Eq messages (received.map correctRow) := List.forall₂_map_right_iff.2 hrows
  rw [List.forall₂_eq_eq_eq] at hlists
  exact hlists.symm

/-- A row occurs in a list as often as its port value among the port values (R9). -/
theorem count_eq_count_map_toNat {n : Nat} (rows : List (BitVec n)) (v : BitVec n) :
    rows.count v = (rows.map BitVec.toNat).count v.toNat :=
  (List.count_map_of_injective rows BitVec.toNat BitVec.toNat_injective v).symm

/-- A CORRECT transaction writes the row presented to `dec_r` of the slot's instance and no other port. -/
theorem exec_correct_ports {r : CwRow} {s t : State} (h : exec (.correct r) s = .next t) :
    t.decR = s.decR.set s.slot.inst r ∧ t.encM = s.encM := by
  rw [exec_correct_eq, Host.Outcome.next.injEq] at h
  simp [← h]

/-- An ENCODE and a CORRECT of its codeword with at most one flip complete in two steps, and the second records the message
(R85). -/
theorem runSteps_encode_correct {m : MsgRow} {r : CwRow} {s : State} {a b : Slot} {rest : List Job}
    (hflip : AtMostOneFlip (encodeRow m) r) (h : s.pending = ⟨a, .encM m⟩ :: ⟨b, .decR r⟩ :: rest) :
    ∃ t, runSteps 2 s = .next t ∧ t.pending = rest ∧
      t.done = s.done ++ [⟨a, .encM m, .codeword (encodeRow m)⟩, ⟨b, .decR r, .message m⟩] := by
  obtain ⟨t, hrun, hpending, hdone⟩ := runSteps_completes_jobs (jobs := [⟨a, .encM m⟩, ⟨b, .decR r⟩]) h
  exact ⟨t, hrun, hpending, by simp [hdone, Job.completed, resultOf, correctRow_of_atMostOneFlip hflip]⟩

end Sys2Proof.Machine
end

section
/-! PROOFS of the family of `spec/41_correct.md`: the function CORRECT and its table, the CORRECT transaction, and the
recovery of messages over a channel that complements at most one position of each codeword. -/

namespace Sys2Proof
open Machine

/-- Settles O12: the transaction records `correctRow r`, which stands at `dec_m` because the instance's `dec_r` holds r; the
syndrome components in the procedure and in the port equations are R63's XORs. -/
theorem correctTransactionReturnsMessage : Obligations.CorrectTransactionReturnsMessage := by
  intro r s
  obtain ⟨t, ht, hdone, -⟩ := exec_spec (.correct r) s
  obtain ⟨hdec, -⟩ := exec_correct_ports ht
  have hport : t.decM s.slot.inst = correctRow r := by simp [State.decM, State.decInput, hdec]
  have hprocedure := bitsOf_correctRow r
  have hequations := bitsOf_correctRow_eq_xors r
  simp only [fixRow_eq_ite, wrongBitIndex_eq, pos_syndrome_zero, pos_syndrome_one, pos_syndrome_two]
    at hprocedure hequations
  exact ⟨t, correctRow r, ht, hdone, hport, hprocedure, by simpa [bitsOf, List.range_succ] using hequations⟩

/-- Settles O14: the two changes are the row at one DEC port and the record at the end. -/
theorem correctTransactionFrame : Obligations.CorrectTransactionFrame := by
  intro r s t h
  obtain ⟨-, hslot, hpending, hblock⟩ := exec_next h
  obtain ⟨hdec, henc⟩ := exec_correct_ports h
  have hother (k : Nat) (hk : s.decR.index k ≠ s.decR.index s.slot.inst) : t.decInput k = s.decInput k := by
    rw [State.decInput, hdec, Bank.get_set_other _ _ _ _ hk, State.decInput]
  refine ⟨hblock, henc, hslot, hpending, by simp [hdec], by simp [State.decInput, hdec], fun k hk => ?_,
    exec_keeps_records h⟩
  exact ⟨hother k hk, congrArg correctRow (hother k hk)⟩

/-- Settles O16: by linearity the syndrome of the row received is that of the flip alone, column p of H, so the correction
undoes the flip; the two pending transactions then complete with the message. -/
theorem oneFlipIsCorrectedOnTheMachine : Obligations.OneFlipIsCorrectedOnTheMachine := by
  intro m s a b rest
  refine ⟨fun h => ⟨syndrome_encodeRow m, runSteps_encode_correct (.inl rfl) h⟩, fun p hp h => ?_⟩
  have hindex : wrongBitIndex (encodeRow m ^^^ unitRow p) = (p : Int) := by
    simp [wrongBitIndex, syndromeK_encodeRow_xor_unitRow m hp]
  refine ⟨hindex, fixRow_encodeRow_xor_unitRow m hp, fun i hi => ?_,
    runSteps_encode_correct (.inr ⟨p, hp, rfl⟩) h⟩
  rw [syndrome_encodeRow_xor_unitRow m hp, bitNat_pos_ofNat_eq_hEntry p hp i hi]

/-- Settles O33: the first call's output batch is the codewords, the rows received differ from them by at most one flip
each, and the second call's output batch is CORRECT of these. -/
theorem batchSurvivesOneFlipPerRow : Obligations.BatchSurvivesOneFlipPerRow := by
  intro messages received s h
  obtain ⟨t, hrun, hpending, hencoded⟩ := runBatch_assembles h (messages.map .encM)
  refine ⟨t, hrun, hpending, fun codewords hread hflips => ?_⟩
  rw [List.length_map, hread, List.map_map] at hencoded
  have hinj : Function.Injective fun c : CwRow => some (Out.codeword c) := fun _ _ hc => by simpa using hc
  have hcodewords : codewords = messages.map encodeRow :=
    hinj.list_map (by simpa [Function.comp_def, resultOf] using hencoded)
  have hmessages : received.map correctRow = messages := map_correctRow_of_atMostOneFlip (hcodewords ▸ hflips)
  obtain ⟨u, hurun, -, hcorrected⟩ := runBatch_assembles hpending (received.map .decR)
  refine ⟨u, hurun, ?_⟩
  rw [List.length_map] at hcorrected
  simp [hcorrected, ← hmessages, resultOf]

/-- Settles O8: a component is the reduced sum of a row of H by definition, and the XOR of the bits that row selects. -/
theorem syndromeIsThreeXors : Obligations.SyndromeIsThreeXors := by
  refine fun r => ⟨fun i hi => ?_, pos_syndrome_zero r, pos_syndrome_one r, pos_syndrome_two r⟩
  rw [pos_syndrome r i hi, syndromeSum_eq_sum]
  rfl

/-- Settles O9: index -1 is k = 0 is a zero syndrome; any other index is k - 1, the one position of the mask. -/
theorem correctionComplementsIndexedPosition : Obligations.CorrectionComplementsIndexedPosition := by
  intro r
  have hzero := wrongBitIndex_eq_neg_one_iff r
  refine ⟨wrongBitIndex_eq r, hzero, ?_, fixRow_of_index_neg_one, fun h => ?_, fun p hp => pos_fixRow r hp⟩
  · rw [hzero, syndromeK_eq_zero_iff, syndrome_eq_zero_iff_components]
  · have hk : syndromeK r ≠ 0 := mt hzero.2 h
    have hlt := syndromeK_lt r
    have hindex : wrongBitIndex r = (syndromeK r : Int) - 1 := rfl
    exact ⟨by omega, by omega, by rw [fixRow_of_index_pos h, flipAt_eq_xor], distance_fixRow_of_syndromeK_ne_zero hk⟩

/-- Settles O10: k selects the syndrome, index and the mask, so the table has one row for each of the eight values of k;
a non-zero syndrome is the column of H at position k - 1. -/
theorem syndromeToPositionTable : Obligations.SyndromeToPositionTable := by
  intro r
  have hlt := syndromeK_lt r
  have hsyndrome := syndrome_eq_ofNat r
  refine ⟨?_, toNat_fixRow_xor_self r, fun hk i hi => ?_⟩
  · rw [toNat_fixRow_xor_self, wrongBitIndex]
    generalize syndromeK r = k at hlt hsyndrome ⊢
    rw [hsyndrome]
    interval_cases k <;> rfl
  · obtain ⟨p, hp⟩ : ∃ p, syndromeK r = p + 1 := Nat.exists_eq_succ_of_ne_zero hk
    have hindex : (wrongBitIndex r).toNat = p := by simp [wrongBitIndex, hp]
    rw [hindex, hsyndrome, hp, bitNat_pos_ofNat_eq_hEntry p (by omega) i hi]

/-- Settles O11: extraction reads the positions of DAT, where the unit row of a parity position is 0. -/
theorem extractionReadsDataPositions : Obligations.ExtractionReadsDataPositions := by
  refine ⟨fun r => ⟨bitsOf_correctRow r, pos_extractRow (fixRow r)⟩, fun c p hp => row_ext fun j hj => ?_⟩
  rw [pos_extractRow _ j hj, pos_extractRow _ j hj, pos_xor, pos_unitRow_dat p hp j hj, Bool.xor_false]

/-- Settles O13: the printed table is evaluated, and each message is counted in it; the working copy is the codeword of the
output, and a codeword within distance 1 of the row is the one that a flip was undone to. -/
theorem correctFunctionTable : Obligations.CorrectFunctionTable := by
  refine (and_iff_left_of_imp fun htable => ?_).2 rfl
  refine ⟨fun r => ?_, fun r m => ⟨fun h => ?_, fun h => ?_⟩, fun r m h => ?_, fun m => ?_⟩
  · exact ⟨syndrome_fixRow r, encodeRow_correctRow r, fixRow_xor_self r, rfl⟩
  · exact (fixRow_of_atMostOneFlip (atMostOneFlip_of_distance_le_one h)).symm
  · exact h ▸ distance_fixRow_le_one r
  · exact correctRow_of_atMostOneFlip (atMostOneFlip_of_distance_le_one h)
  · rw [count_eq_count_map_toNat, List.map_map, Function.comp_def, htable]
    clear htable
    revert m
    decide

end Sys2Proof
end

section
/-! SUPPORT. What a step does to the input ports (R82, R87), and CORRECT on a codeword with two or three positions
complemented (R86): the syndrome is that of the complemented positions alone, and the codeword sent does not lie within
one flip of the row received. -/

namespace Sys2Proof.Machine

/-- Where presenting a row changes a port, the port is of the instance named and carries the row. -/
theorem Bank.get_set_changed {α : Type} {b : Bank α} {k q : Nat} {v : α} (h : (b.set k v).get q ≠ b.get q) :
    b.index q = b.index k ∧ (b.set k v).get q = v := by
  have hindex : b.index q = b.index k := by
    by_contra hne
    exact h (b.get_set_other k q v hne)
  have hsame : (b.set k v).get q = (b.set k v).get k := Bank.get_congr _ (by simpa using hindex)
  exact ⟨hindex, hsame.trans (b.get_set_same k v)⟩

/-- Everything a step can do to the block and to the input ports: nothing, or present the next pending row at the port
of its own unit and instance. -/
theorem step_ports {s t : State} (h : step s = .next t) :
    t.block = s.block ∧
    ((t.encM = s.encM ∧ t.decR = s.decR) ∨
      (∃ a m rest, s.pending = ⟨a, .encM m⟩ :: rest ∧ t.encM = s.encM.set a.inst m ∧ t.decR = s.decR) ∨
      (∃ a r rest, s.pending = ⟨a, .decR r⟩ :: rest ∧ t.decR = s.decR.set a.inst r ∧ t.encM = s.encM)) := by
  rcases hpending : s.pending with _ | ⟨⟨a, drive⟩, rest⟩
  · rw [step_nil hpending, Host.Outcome.next.injEq] at h
    subst h
    exact ⟨rfl, .inl ⟨rfl, rfl⟩⟩
  · rw [step_cons hpending] at h
    obtain ⟨-, -, -, hblock⟩ := exec_next h
    cases drive with
    | encM m => exact ⟨hblock, .inr (.inl ⟨a, m, rest, rfl, exec_encode_ports h⟩)⟩
    | decR r => exact ⟨hblock, .inr (.inr ⟨a, r, rest, rfl, exec_correct_ports h⟩)⟩

/-- The syndrome of a codeword with complemented positions is that of the positions alone. -/
theorem syndrome_encodeRow_xor (m : MsgRow) (e : CwRow) : syndrome (encodeRow m ^^^ e) = syndrome e := by
  rw [syndrome_xor, syndrome_encodeRow, BitVec.zero_xor]

/-- A codeword with two or more positions complemented is never corrected to the message sent: the working copy is the
codeword of the output and lies within one flip of the row received (R73). -/
theorem correctRow_ne_of_two_le_weight (m : MsgRow) {e : CwRow} (h : 2 ≤ weight e) :
    correctRow (encodeRow m ^^^ e) ≠ m := by
  intro hm
  have hdist := distance_fixRow_le_one (encodeRow m ^^^ e)
  rw [← encodeRow_correctRow, hm, distance, xor_cancel_left] at hdist
  omega

theorem weight_unitRow_xor_unitRow :
    ∀ p q : Fin 7, p ≠ q → weight (unitRow p ^^^ unitRow q) = 2 := by decide

theorem weight_unitRow_xor_unitRow_xor_unitRow :
    ∀ p q u : Fin 7, p ≠ q → p ≠ u → q ≠ u → weight (unitRow p ^^^ unitRow q ^^^ unitRow u) = 3 := by decide

/-- Two different columns of H add up to a third one: the columns are all the non-zero syndromes (R12). -/
theorem column_xor_column :
    ∀ p q : Fin 7, p ≠ q → ∃ u : Fin 7, u ≠ p ∧ u ≠ q ∧
      BitVec.ofNat 3 (p + 1) ^^^ BitVec.ofNat 3 (q + 1) = BitVec.ofNat 3 (u + 1) := by decide

/-- The syndrome of two flips of a codeword is the column of H at a third position. -/
theorem syndrome_two_flips (m : MsgRow) {p q : Fin 7} (h : p ≠ q) :
    ∃ u : Fin 7, u ≠ p ∧ u ≠ q ∧
      syndrome (encodeRow m ^^^ (unitRow p ^^^ unitRow q)) = BitVec.ofNat 3 (u + 1) := by
  obtain ⟨u, hp, hq, hcolumn⟩ := column_xor_column p q h
  refine ⟨u, hp, hq, ?_⟩
  rw [syndrome_encodeRow_xor, syndrome_xor, syndrome_unitRow p.isLt, syndrome_unitRow q.isLt, hcolumn]

/-- A syndrome that is a column of H gives k one more than the column's position (R64, R67). -/
theorem syndromeK_of_syndrome_eq_column {r : CwRow} {u : Nat} (hu : u < 7)
    (h : syndrome r = BitVec.ofNat 3 (u + 1)) : syndromeK r = u + 1 := by
  rw [syndromeK_eq_toNat, h, BitVec.toNat_ofNat]
  omega

end Sys2Proof.Machine
end

section
/-! PROOFS of the family of `spec/42_batch_and_properties.md`: what a step drives, batch calls, and the limits of the
correction. -/

namespace Sys2Proof
open Machine

/-- Settles O24: a step presents at most the next pending row, at the port of its unit and instance, and there alone can a
port change. -/
theorem stepDrivesOneInputPort : Obligations.StepDrivesOneInputPort := by
  intro s t h
  obtain ⟨hblock, ⟨henc, hdec⟩ | ⟨a, m, rest, hpending, henc, hdec⟩ | ⟨a, r, rest, hpending, hdec, henc⟩⟩ :=
    step_ports h
  · simp [hblock, henc, hdec, State.encInput, State.decInput]
  · refine ⟨hblock, by simp [henc], by simp [hdec], fun k hk => ?_, by simp [hdec, State.decInput]⟩
    rw [State.encInput, henc] at hk ⊢
    exact ⟨a, m, rest, hpending, Bank.get_set_changed hk⟩
  · refine ⟨hblock, by simp [henc], by simp [hdec], by simp [henc, State.encInput], fun k hk => ?_⟩
    rw [State.decInput, hdec] at hk ⊢
    exact ⟨a, r, rest, hpending, Bank.get_set_changed hk⟩

/-- Settles O30: the batch call assembles `resultOf` of every row, which is ENCODE or CORRECT by the row's port. -/
theorem batchCallMapsTheRowFunction : Obligations.BatchCallMapsTheRowFunction := by
  intro s h
  constructor
  · intro batch
    obtain ⟨t, hrun, hpending, hassemble⟩ := runBatch_assembles h (batch.map .encM)
    exact ⟨t, hrun, hpending, by simpa [Function.comp_def, resultOf] using hassemble⟩
  · intro batch
    obtain ⟨t, hrun, hpending, hassemble⟩ := runBatch_assembles h (batch.map .decR)
    exact ⟨t, hrun, hpending, by simpa [Function.comp_def, resultOf] using hassemble⟩

/-- Settles O31: each call assembles the row function mapped over its own rows, and a map distributes over `++`; an empty
batch issues nothing. -/
theorem batchCallsConcatenate : Obligations.BatchCallsConcatenate := by
  refine ⟨fun a b s s' s'' h h' h'' => ?_, fun d s h => ?_, fun s h => ⟨?_, rfl⟩⟩
  · obtain ⟨t, hrun, -, hab⟩ := runBatch_assembles h (a ++ b)
    obtain ⟨t', hrun', -, ha⟩ := runBatch_assembles h' a
    obtain ⟨t'', hrun'', -, hb⟩ := runBatch_assembles h'' b
    refine ⟨t, t', t'', hrun, hrun', hrun'', ?_⟩
    rw [← List.length_append, hab, ha, hb, List.map_append]
  · obtain ⟨t, hrun, -, hassemble⟩ := runBatch_assembles h [d]
    refine ⟨t, hrun, hassemble.trans ?_⟩
    cases d <;> rfl
  · rw [runBatch_of_nothing_pending [] h]
    simp [runSteps_zero, batchJobs, State.issue]

/-- Settles O15: two flips have the syndrome of a third position, so CORRECT complements that one too and reaches another
codeword; three flips pass as clean exactly when they add up to a codeword; and neither output is the message sent, whose
codeword lies two or three flips away. -/
theorem twoOrThreeFlipsNeverRecover : Obligations.TwoOrThreeFlipsNeverRecover := by
  refine ⟨fun m p q hpq => ?_, fun m p q u hpq hpu hqu => ?_, encodeRow_correctRow,
    fun m => correctRow_of_atMostOneFlip (.inl rfl)⟩
  · rw [BitVec.xor_assoc]
    intro r
    have hweight := weight_unitRow_xor_unitRow p q hpq
    have hne : correctRow r ≠ m := correctRow_ne_of_two_le_weight m hweight.ge
    obtain ⟨u, hup, huq, hcolumn⟩ := syndrome_two_flips m hpq
    have hk : syndromeK r = u + 1 := syndromeK_of_syndrome_eq_column u.isLt hcolumn
    have hk0 : syndromeK r ≠ 0 := by omega
    refine ⟨hne, mt (syndromeK_eq_zero_iff r).2 hk0, ⟨correctRow r, hne, (encodeRow_correctRow r).symm⟩, u, hup, huq,
      by simp [wrongBitIndex, hk], ?_⟩
    rw [fixRow_of_syndromeK_ne_zero hk0, hk, Nat.add_sub_cancel]
  · rw [BitVec.xor_assoc, BitVec.xor_assoc, ← BitVec.xor_assoc (unitRow p)]
    intro r
    have hweight := weight_unitRow_xor_unitRow_xor_unitRow p q u hpq hpu hqu
    refine ⟨correctRow_ne_of_two_le_weight m (by omega),
      fun hs => fixRow_of_syndromeK_zero ((syndromeK_eq_zero_iff r).2 hs), ?_⟩
    rw [← syndrome_eq_zero_iff_exists_encodeRow, syndrome_encodeRow_xor]

end Sys2Proof
end

section
/-! SUPPORT. The host's validation (R97 to R100): which defects a line and a source have, what `acquire` answers for a
readable source, and that a validated line keeps its characters; and that every step answers a next state (R89). -/

namespace Sys2Proof.Machine

/-- The characters that are no bit are all but '0' and '1' (R99). -/
theorem charBit_eq_none_iff (c : Char) : charBit c = none ↔ c ≠ '0' ∧ c ≠ '1' := by
  by_cases h0 : c = '0'
  · simp [charBit, h0]
  · by_cases h1 : c = '1' <;> simp [charBit, h0, h1]

/-- The characters that are a bit are '0' and '1' (R48, D4). -/
theorem isSome_charBit_iff (c : Char) : (charBit c).isSome ↔ c = '0' ∨ c = '1' := by
  rw [Option.isSome_iff_ne_none, ne_eq, charBit_eq_none_iff]
  tauto

/-- A character read as a bit is the character of that bit (R48). -/
theorem bitChar_of_charBit {c : Char} {b : Bit} (h : charBit c = some b) : bitChar b = c := by
  obtain rfl | rfl := (isSome_charBit_iff c).1 (by simp [h])
  · obtain rfl : false = b := Option.some.inj h
    rfl
  · obtain rfl : true = b := Option.some.inj h
    rfl

/-- The row of a line of bits has the line's characters, in order (R48). -/
theorem map_bitChar_lineBits {line : List Char} (h : ∀ c ∈ line, (charBit c).isSome) :
    (lineBits line).map bitChar = line := by
  induction line with
  | nil => rfl
  | cons c line ih =>
    obtain ⟨hc, hline⟩ := List.forall_mem_cons.1 h
    obtain ⟨b, hb⟩ := Option.isSome_iff_exists.1 hc
    have hcons : lineBits (c :: line) = b :: lineBits line := List.filterMap_cons_some hb
    rw [hcons, List.map_cons, bitChar_of_charBit hb, ih hline]

/-- The row of a line of bits is as long as the line. -/
theorem length_lineBits {line : List Char} (h : ∀ c ∈ line, (charBit c).isSome) :
    (lineBits line).length = line.length := by
  simpa using congrArg List.length (map_bitChar_lineBits h)

/-- A defect of a line is its other width, or one of its characters that is no bit (R98, R99). -/
theorem mem_lineDefects_iff (p : Port) (line : List Char) (n : Nat) (f : HostFailure) :
    f ∈ lineDefects p line n ↔
      (line.length ≠ p.width ∧ f = .lengthMismatch (Config.firstLineNumber + n) line.length) ∨
      ∃ c ∈ line, c ≠ '0' ∧ c ≠ '1' ∧ f = .invalidCharacter (Config.firstLineNumber + n) c := by
  rw [lineDefects, List.mem_append]
  refine or_congr ?_ ?_
  · by_cases hwidth : line.length = p.width <;> simp [hwidth]
  · simp [charBit_eq_none_iff, and_assoc, eq_comm (a := f)]

/-- A defect of a source is a defect of one of its lines, under that line's index (R100). -/
theorem mem_sourceDefects_iff (p : Port) (lines : List (List Char)) (f : HostFailure) :
    f ∈ sourceDefects p lines ↔ ∃ n l, lines[n]? = some l ∧ f ∈ lineDefects p l n := by
  simp only [sourceDefects, List.mem_flatMap, Prod.exists, List.mem_zipIdx_iff_getElem?]
  exact exists_comm

/-- The failure reported is one of the defects, whichever the host chooses (R100, log entry 6). -/
theorem reportDefect_mem (p : Port) (lines : List (List Char)) (d : HostFailure) (ds : List HostFailure) :
    reportDefect p lines d ds ∈ d :: ds := by
  have hlt : Config.reportedDefect p.width lines % (ds.length + 1) < (d :: ds).length := Nat.mod_lt _ ds.length.succ_pos
  rw [reportDefect, List.getD_eq_getElem _ _ hlt]
  exact List.getElem_mem hlt

/-- What the host answers for a readable source: without a defect the lines as rows, else one of the defects (R100). -/
theorem acquire_some_cases (p : Port) (lines : List (List Char)) :
    (sourceDefects p lines = [] ∧ acquire p (some lines) = .ok (lines.map lineBits)) ∨
      ∃ f ∈ sourceDefects p lines, acquire p (some lines) = .error f := by
  rcases hdefects : sourceDefects p lines with _ | ⟨d, ds⟩
  · exact .inl ⟨rfl, by simp [acquire, hdefects]⟩
  · exact .inr ⟨reportDefect p lines d ds, reportDefect_mem p lines d ds, by simp [acquire, hdefects]⟩

/-- A failure the host reports of a readable source is one of the source's defects. -/
theorem mem_sourceDefects_of_acquire_error {p : Port} {lines : List (List Char)} {f : HostFailure}
    (h : acquire p (some lines) = .error f) : f ∈ sourceDefects p lines := by
  obtain ⟨-, hok⟩ | ⟨g, hg, herror⟩ := acquire_some_cases p lines
  · cases hok.symm.trans h
  · exact Except.error.inj (herror.symm.trans h) ▸ hg

/-- In a source without a defect every line has its port's width and only '0' and '1' (R98, R99). -/
theorem valid_lines_of_sourceDefects_eq_nil {p : Port} {lines : List (List Char)} (h : sourceDefects p lines = []) :
    ∀ l ∈ lines, l.length = p.width ∧ ∀ c ∈ l, (charBit c).isSome := by
  intro l hl
  obtain ⟨n, hn⟩ := List.mem_iff_getElem?.1 hl
  refine (lineDefects_eq_nil_iff p l n).1 (List.eq_nil_iff_forall_not_mem.2 fun f hf => ?_)
  exact List.not_mem_nil (h ▸ (mem_sourceDefects_iff p lines f).2 ⟨n, l, hn, hf⟩)

/-- A source is accepted exactly when every line has its port's width and only '0' and '1', and then its rows are its
lines. -/
theorem acquire_eq_ok_iff (p : Port) (lines : List (List Char)) (rows : List (List Bit)) :
    acquire p (some lines) = .ok rows ↔
      (∀ l ∈ lines, l.length = p.width ∧ ∀ c ∈ l, (charBit c).isSome) ∧ rows = lines.map lineBits := by
  constructor
  · intro h
    obtain ⟨hnone, hok⟩ | ⟨f, -, herror⟩ := acquire_some_cases p lines
    · exact ⟨valid_lines_of_sourceDefects_eq_nil hnone, Except.ok.inj (h.symm.trans hok)⟩
    · cases herror.symm.trans h
  · rintro ⟨hvalid, rfl⟩
    exact acquire_of_valid_lines hvalid

/-- Lines of a port's width and of bits meet the width contract as rows (R26). -/
theorem batchWf_map_lineBits {p : Port} {lines : List (List Char)}
    (h : ∀ l ∈ lines, l.length = p.width ∧ ∀ c ∈ l, (charBit c).isSome) : batchWf p (lines.map lineBits) = true := by
  rw [batchWf, List.all_map, List.all_eq_true]
  intro l hl
  obtain ⟨hwidth, hbits⟩ := h l hl
  exact (RawTxn.wf_iff _).2 ((length_lineBits hbits).trans hwidth)

/-- Every step answers a next state: that of the next job's transaction, or the same state (R89, log entry 3). -/
theorem exists_step_eq_next (s : State) : ∃ t, step s = .next t := by
  rcases hpending : s.pending with _ | ⟨j, rest⟩
  · exact ⟨s, step_nil hpending⟩
  · obtain ⟨t, ht, -⟩ := step_completes_job hpending
    exact ⟨t, ht⟩

/-- The codeword of CORRECT's message lies within one flip of the row received (R73). -/
theorem distance_encodeRow_correctRow_le_one (r : CwRow) : distance (encodeRow (correctRow r)) r ≤ 1 := by
  rw [encodeRow_correctRow]
  exact distance_fixRow_le_one r

end Sys2Proof.Machine
end

section
/-! PROOFS of the family of `spec/60_exceptions.md`: no transaction faults, and the host's validation accepts exactly the
valid sources and reports real defects. -/

namespace Sys2Proof
open Machine

/-- Settles O21: a transaction records `resultOf` of its own row: a codeword, which has zero syndrome and carries the
message, or a message whose codeword is the working copy, at most one flip away. `Fault` has no constructor. -/
theorem everyTransactionCompletes : Obligations.EveryTransactionCompletes := by
  refine ⟨fun i s => ?_, exists_step_eq_next, nofun⟩
  obtain ⟨t, ht, hdone, -⟩ := exec_spec i s
  refine ⟨t, ht, resultOf (encodeDrive i), hdone, ?_⟩
  cases i with
  | encode m => exact ⟨extractRow_encodeRow m, syndrome_encodeRow m⟩
  | correct r => exact distance_encodeRow_correctRow_le_one r

/-- Settles O34: a source is accepted exactly when no line has a defect; a valid line's characters are all bits, so its row
has the line's width and characters. -/
theorem onlyValidSourcesAreAccepted : Obligations.OnlyValidSourcesAreAccepted := by
  refine fun p => ⟨rfl, fun lines => ⟨?_, fun rows h => ?_⟩⟩
  · simp only [acquire_eq_ok_iff, exists_and_left, exists_eq, and_true, isSome_charBit_iff]
  · obtain ⟨hvalid, rfl⟩ := (acquire_eq_ok_iff p lines rows).1 h
    refine ⟨batchWf_map_lineBits hvalid, ?_⟩
    have hline : ∀ l ∈ lines, (lineBits l).map bitChar = l := fun l hl => map_bitChar_lineBits (hvalid l hl).2
    rw [List.map_map]
    exact (List.map_congr_left hline).trans (List.map_id' lines)

/-- Settles O35: the failure reported is a defect of some line, and a line's defects are of the two kinds. -/
theorem reportedFailureIsReal : Obligations.ReportedFailureIsReal := by
  intro p lines f h
  obtain ⟨n, l, hn, hf⟩ := (mem_sourceDefects_iff p lines f).1 (mem_sourceDefects_of_acquire_error h)
  obtain ⟨hwidth, rfl⟩ | ⟨c, hc, h0, h1, rfl⟩ := (mem_lineDefects_iff p l n f).1 hf
  · exact .inl ⟨n, l, hn, hwidth, rfl⟩
  · exact .inr ⟨n, l, c, hn, hc, h0, h1, rfl⟩

end Sys2Proof
end

section
/-! SUPPORT. What a run of any number of steps does to the pending transactions and to the record (R108), and the record a
batch call leaves from any state (log entry 11). -/

namespace Sys2Proof.Machine

/-- A run of n steps completes the first n pending transactions in their order, or all of them when there are fewer; then
it idles (R108, log entry 3). -/
theorem runSteps_spec (n : Nat) (s : State) :
    ∃ t, runSteps n s = .next t ∧ t.pending = s.pending.drop n ∧
      t.done = s.done ++ (s.pending.take n).map Job.completed := by
  induction n generalizing s with
  | zero => exact ⟨s, runSteps_zero s, by simp⟩
  | succ n ih =>
    rcases hpending : s.pending with _ | ⟨j, rest⟩
    · rw [runSteps_succ n (step_nil hpending)]
      simpa [hpending] using ih s
    · obtain ⟨u, hstep, hupending, hudone⟩ := step_completes_job hpending
      rw [runSteps_succ n hstep]
      simpa [hupending, hudone] using ih u

/-- The record of a completed job names the job's slot and the row it presented. -/
theorem map_slot_drive_completed (jobs : List Job) :
    (jobs.map Job.completed).map (fun d => (⟨d.slot, d.drive⟩ : Job)) = jobs := by
  simp [Function.comp_def]

/-- A batch call completes the transactions already pending and then its own, leaving none (R108, log entry 11). -/
theorem runBatch_completes (rows : List Drive) (s : State) :
    ∃ t, runBatch rows s = .next t ∧ t.pending = [] ∧
      t.done = s.done ++ s.pending.map Job.completed ++ (batchJobs rows).map Job.completed := by
  have hpending : (s.issue (batchJobs rows)).pending = (s.pending ++ batchJobs rows) ++ [] := by simp
  obtain ⟨t, hrun, htpending, hdone⟩ := runSteps_completes_jobs hpending
  rw [List.length_append, length_batchJobs] at hrun
  exact ⟨t, hrun, htpending, by simpa using hdone⟩

end Sys2Proof.Machine
end

section
/-! PROOFS of the family of `spec/70_reset_and_hazards.md`: no run stops, and a batch call ends with all its rows produced
(R108). -/

namespace Sys2Proof
open Machine

/-- Settles O22: a run appends to the record the completed forms of the first n pending jobs, and a job is read back off its
completed form. -/
theorem runsCompleteTheirTransactions : Obligations.RunsCompleteTheirTransactions := by
  refine ⟨fun s n => ?_, fun n s t h => ?_⟩
  · obtain ⟨t, hrun, -⟩ := runSteps_spec n s
    exact ⟨t, hrun⟩
  · obtain ⟨t', hrun, hpending, hdone⟩ := runSteps_spec n s
    obtain rfl : t = t' := Host.Outcome.next.inj (h.symm.trans hrun)
    rw [hdone, List.take_left, List.drop_left]
    exact ⟨hpending, rfl, map_slot_drive_completed _⟩

/-- Settles O41: the call's own records stand behind those of the transactions pending before it, and they assemble to
`resultOf` of every row, which is ENCODE or CORRECT by the row's port. -/
theorem batchCallEndsWithAllRowsProduced : Obligations.BatchCallEndsWithAllRowsProduced := by
  intro rows s
  obtain ⟨t, hrun, hpending, hdone⟩ := runBatch_completes rows s
  have hbefore : (s.done ++ s.pending.map Job.completed).length = s.done.length + s.pending.length := by simp
  refine ⟨t, hrun, hpending, by simp [hdone, Nat.add_assoc], ?_⟩
  rw [hdone, ← hbefore, List.drop_left, assemble_completed_of_perm (.of_eq (map_drive_row_batchJobs rows))]
  exact List.map_congr_left fun d _ => by cases d <;> rfl

end Sys2Proof
end

section
/-! SUPPORT. A unit with one instance, as at power-on: every instance number names that instance (R87, log entry 4). -/

namespace Sys2Proof.Machine

/-- With one instance built, every instance number reads its port. -/
theorem Bank.get_of_size_eq_one {α : Type} {b : Bank α} (h : b.size = 1) (k : Nat) : b.get k = b.first := by
  have hindex : b.index k = 0 := by rw [Bank.index, h, Nat.mod_one]
  simp [Bank.get, hindex]

end Sys2Proof.Machine
end

section
/-! PROOFS of the statements that belong to no one family: the power-on state and the source's own vectors. -/

namespace Sys2Proof
open Machine

/-- Settles O20: each bank has one instance, so the first port's 0 is the row at every instance number; the rest is the
definition of the power-on state. -/
theorem powerOnStateHasNothingToReset : Obligations.PowerOnStateHasNothingToReset := by
  have henc : State.reset.encM.size = 1 := rfl
  have hdec : State.reset.decR.size = 1 := rfl
  exact ⟨rfl, henc, hdec, fun k => ⟨Bank.get_of_size_eq_one henc k, Bank.get_of_size_eq_one hdec k⟩, rfl, rfl, rfl⟩

/-- Settles O40: the vectors of ENCODE are evaluated; those of CORRECT follow from the first, `2D` being the codeword of `5`,
by the recovery of a message from its codeword with at most one flip (R71). -/
theorem sourceVectorsHoldAsCorrected : Obligations.SourceVectorsHoldAsCorrected := by
  have hcodeword : encodeRow 0x5#4 = 0x2D#7 := by decide
  refine ⟨hcodeword, by decide, by decide, by decide, by decide, ?_, fun p hp => ?_⟩
  · exact correctRow_of_atMostOneFlip (.inl hcodeword.symm)
  · exact correctRow_of_atMostOneFlip (.inr ⟨p, hp, by rw [hcodeword, flipAt_eq_xor]⟩)

end Sys2Proof
end
